-- ==== Sys2Proof/Word.lean ====
section
/-!
DEFINITION. The two word types of the engine, the 32-bit arithmetic primitives of the
spec's notation (00_scope.md R28), and the four-word register file shape that the key
registers and the secret staging registers share.
-/

namespace Sys2Proof

/-- A 32-bit unsigned word (00_scope.md R5, R7, R28). -/
abbrev Word := BitVec 32

/-- One byte of BUF (10_state.md R25). -/
abbrev Byte := BitVec 8

/-- `add32(a, b)`: `(a + b) mod 2^32` (00_scope.md R28). -/
abbrev add32 (a b : Word) : Word := a + b

/-- `sub32(a, b)`: `(a - b) mod 2^32` (00_scope.md R28). -/
abbrev sub32 (a b : Word) : Word := a - b

/-- `shl32(a, n)`: logical left shift, bits past bit 31 are lost (00_scope.md R28). -/
abbrev shl32 (a : Word) (n : Nat) : Word := a <<< n

/-- `shr32(a, n)`: logical right shift, never sign-propagating (00_scope.md R28). -/
abbrev shr32 (a : Word) (n : Nat) : Word := a >>> n

/-- `xor32(a, b)`: bitwise exclusive or (00_scope.md R28). -/
abbrev xor32 (a b : Word) : Word := a ^^^ b

/-- Four 32-bit registers with a 2-bit index: `K[0..3]` (10_state.md R11) and `SEC[0..3]`
(10_state.md R23). -/
@[ext]
structure Words4 where
  w0 : Word
  w1 : Word
  w2 : Word
  w3 : Word
deriving DecidableEq, Repr

/-- All four registers zero. -/
def Words4.zero : Words4 := ⟨0, 0, 0, 0⟩

end Sys2Proof
end

