-- ==== Sys2Proof/Syntax.lean ====
section
/-!
DEFINITION. The commands of the engine: one constructor per row of spec/opcode_table.json
(30_encoding.md R63). A command is what a write to CMD names; nothing else is executed.
-/

namespace Sys2Proof

/-- A command (30_encoding.md R63). Format N commands have no operand; format B commands name a
block of BUF by its index (R60, R62). -/
inductive Instr where
  /-- 0x00, 44_pipeline.md R142. -/
  | nop
  /-- 0x01, 41_key_material.md R101. -/
  | keyload
  /-- 0x02, 40_block_transform.md R87: the block index. -/
  | encblk (n : Nat)
  /-- 0x03, 40_block_transform.md R88: the block index. -/
  | decblk (n : Nat)
  /-- 0x04, 42_padding_codec.md R112. -/
  | pad
  /-- 0x05, 42_padding_codec.md R114. -/
  | unpad
  /-- 0x06, 43_block_stream.md R131. -/
  | encbuf
  /-- 0x07, 43_block_stream.md R132. -/
  | decbuf
  /-- 0x08, 44_pipeline.md R140. -/
  | encrypt
  /-- 0x09, 44_pipeline.md R141. -/
  | decrypt
  /-- 0x0A, 41_key_material.md R102. -/
  | keyclr
deriving DecidableEq, Repr

end Sys2Proof
end

