-- ==== Sys2Proof/WellFormed.lean ====
section
/-!
DEFINITION. Which terms of `Instr` are commands the engine has: the block index of a format B
command is an unsigned 24-bit value (30_encoding.md R62).
-/

namespace Sys2Proof

/-- A block index fits the ARG field (30_encoding.md R62). -/
def argFits (n : Nat) : Bool := n < 2 ^ 24

/-- Well-formedness, constructor by constructor: only the format B commands have an operand to
check (30_encoding.md R60, R62). -/
def Instr.wf : Instr → Bool
  | .nop => true
  | .keyload => true
  | .encblk n => argFits n
  | .decblk n => argFits n
  | .pad => true
  | .unpad => true
  | .encbuf => true
  | .decbuf => true
  | .encrypt => true
  | .decrypt => true
  | .keyclr => true

end Sys2Proof
end

