-- ==== Sys2Proof/Decode.lean ====
section
/-!
DEFINITION. Decoding of a command word, total on all 2^32 words (30_encoding.md R67), and the
encoder written from the same table (R60 to R63).
-/

namespace Sys2Proof

/-- Why a word is no command. Both end the command with the same result code (30_encoding.md
R64, R65). -/
inductive DecodeReject where
  /-- OPC in 0x0B .. 0xFF, whatever its ARG (30_encoding.md R64). -/
  | reservedOpcode (opc : Byte)
  /-- A format N opcode whose ARG is not zero (30_encoding.md R65). -/
  | nonzeroArg (opc : Byte) (arg : BitVec 24)
deriving DecidableEq, Repr

/-- What decoding gives: a command, or the reason the word is illegal. -/
inductive Decoded where
  | command (i : Instr)
  | illegal (why : DecodeReject)
deriving DecidableEq, Repr

/-- OPC: bits 7:0 (30_encoding.md R61). -/
def opcField (w : Word) : Byte := w.extractLsb' 0 8

/-- ARG: bits 31:8, unsigned (30_encoding.md R62). -/
def argField (w : Word) : BitVec 24 := w.extractLsb' 8 24

/-- A format N word: its ARG must be zero (30_encoding.md R60, R65). -/
def formatN (w : Word) (i : Instr) : Decoded :=
  if argField w = 0 then .command i else .illegal (.nonzeroArg (opcField w) (argField w))

/-- A format B word: its ARG is the block index (30_encoding.md R60, R62). -/
def formatB (w : Word) (i : Nat → Instr) : Decoded := .command (i (argField w).toNat)

/-- The decoder (30_encoding.md R63, R64, R65, R67). -/
def decode (w : Word) : Decoded :=
  match (opcField w).toNat with
  | 0x00 => formatN w .nop
  | 0x01 => formatN w .keyload
  | 0x02 => formatB w .encblk
  | 0x03 => formatB w .decblk
  | 0x04 => formatN w .pad
  | 0x05 => formatN w .unpad
  | 0x06 => formatN w .encbuf
  | 0x07 => formatN w .decbuf
  | 0x08 => formatN w .encrypt
  | 0x09 => formatN w .decrypt
  | 0x0A => formatN w .keyclr
  | _ => .illegal (.reservedOpcode (opcField w))

/-- The instruction decoded from an opcode-table word of `nbits` bits; every bit above `nbits`
is zero. A command is one 32-bit word, written to CMD whole (30_encoding.md R60), so no byte
order enters. -/
def decodeTableWord (nbits w : Nat) : Option Instr :=
  match decode (BitVec.ofNat 32 (w % 2 ^ nbits)) with
  | .command i => some i
  | .illegal _ => none

/-- The OPC of a command (30_encoding.md R63). -/
def Instr.opcode : Instr → Nat
  | .nop => 0x00
  | .keyload => 0x01
  | .encblk _ => 0x02
  | .decblk _ => 0x03
  | .pad => 0x04
  | .unpad => 0x05
  | .encbuf => 0x06
  | .decbuf => 0x07
  | .encrypt => 0x08
  | .decrypt => 0x09
  | .keyclr => 0x0A

/-- The ARG of a command: the block index in format B, zero in format N (30_encoding.md R60). -/
def Instr.arg : Instr → Nat
  | .nop => 0
  | .keyload => 0
  | .encblk n => n
  | .decblk n => n
  | .pad => 0
  | .unpad => 0
  | .encbuf => 0
  | .decbuf => 0
  | .encrypt => 0
  | .decrypt => 0
  | .keyclr => 0

/-- The encoder: ARG at bits 31:8 and OPC at bits 7:0, `(n << 8) | OPC` (30_encoding.md R60,
R63). -/
def encode (i : Instr) : Word := BitVec.ofNat 32 (i.arg * 2 ^ 8 + i.opcode)

end Sys2Proof
end

