-- ==== Sys2Proof/Config.lean ====
section
/-!
DEFINITION. The fixed constants of the engine (00_scope.md R5), its one open parameter
BUFCAP (R6), and the free values the spec leaves unspecified. An `opaque` constant has no
body: no proof can see its value, so a claim about it holds whatever it is.
-/

namespace Sys2Proof.Config

/-- `BLOCK_BYTES = 8` (00_scope.md R5). -/
def BLOCK_BYTES : Nat := 8

/-- `KEY_BYTES = 16` (00_scope.md R5). -/
def KEY_BYTES : Nat := 16

/-- `ROUNDS = 32` (00_scope.md R5). -/
def ROUNDS : Nat := 32

/-- `DELTA = 0x9E3779B9` (00_scope.md R5). -/
def DELTA : Word := 0x9E3779B9#32

/-- `SUM_INIT_DEC = (DELTA * 32) mod 2^32` (00_scope.md R5, 40_block_transform.md R84). -/
def SUM_INIT_DEC : Word := 0xC6EF3720#32

/-- Upper bound of BUFCAP (00_scope.md R6). -/
def BUFCAP_MAX : Nat := 2 ^ 27

/-- The constraints on BUFCAP: `BUFCAP mod 8 = 0` and `16 <= BUFCAP <= 2^27` (00_scope.md R6). -/
def capOk (cap : Nat) : Bool := decide (cap % 8 = 0 ∧ 16 ≤ cap ∧ cap ≤ BUFCAP_MAX)

/-- The open choice behind BUFCAP: any natural number (log entry 1). -/
opaque bufcapChoice : Nat

/-- The parameter BUFCAP (00_scope.md R6): every capacity the constraints allow is given by
some choice, and no other is (log entry 1; the lemma is `capOk_BUFCAP`). -/
def BUFCAP : Nat := 8 * (bufcapChoice % (2 ^ 24 - 1)) + 16

/-- The unspecified byte that BUF holds at an address nothing has written since reset, for the
reset that drew index `draw` (70_reset_and_hazards.md R181; log entry 2). -/
opaque freeByte (draw addr : Nat) : Byte

/-- The unspecified value of V0 between commands, at draw `n` (10_state.md R13; log entry 3). -/
opaque freeV0 (n : Nat) : Word

/-- The unspecified value of V1 between commands (10_state.md R13; log entry 3). -/
opaque freeV1 (n : Nat) : Word

/-- The unspecified value of SUM between commands (10_state.md R13; log entry 3). -/
opaque freeSum (n : Nat) : Word

/-- The unspecified value of RND between commands (10_state.md R13; log entry 3). -/
opaque freeRnd (n : Nat) : BitVec 6

end Sys2Proof.Config
end

