-- ==== Sys2Proof/Machine/State.lean ====
section
/-!
DEFINITION. The machine's state as plain data: the components of 10_state.md R10, the host's
pending transactions and the values returned to it (20_memory.md R47, 70_reset_and_hazards.md
R191), and the state right after reset (10_state.md R30).
-/

namespace Sys2Proof.Machine

/-- Faults of the model: none. "There is no behaviour in this spec whose treatment is fault:
every command on every state has a defined result" (93_implementation_defined.md, part 1). -/
inductive Fault where
deriving DecidableEq, Repr

/-- Refusals of the model: an instruction with no meaning yet, and the host transactions outside
the interface (20_memory.md R50; 93_implementation_defined.md U10). -/
inductive Refusal where
  /-- Raised by `exec` for an instruction without a meaning; none is left. Safe. -/
  | notModelled (mnemonic : String)
  /-- Raised by a RegRead or RegWrite at an offset that is not an aligned offset below 0x30
  (10_state.md R24, 20_memory.md R50). Safe. -/
  | registerAccess (off : Nat)
  /-- Raised by a BufRead or BufWrite at an address at or above BUFCAP (20_memory.md R50). Safe. -/
  | bufferAccess (a : Nat)
deriving DecidableEq, Repr

/-- The result codes' names (60_exceptions.md R160); `ok` is success. -/
inductive ResultCode where
  | ok
  | invalidCiphertextSize
  | invalidPadding
  | illegalCommand
  | range
  | noKey
  | notBlockMultiple
deriving DecidableEq, Repr

/-- What acts on the engine from outside: the host's four transactions (20_memory.md R41) and
reset (70_reset_and_hazards.md R180). A register transaction is 32 bits wide and a buffer
transaction one byte wide by its type; no other width is a transaction (10_state.md R24). -/
inductive HostEvent where
  /-- `RegWrite(off, v)`; at 0x00 it executes a command. -/
  | regWrite (off : Nat) (v : Word)
  /-- `RegRead(off)`. -/
  | regRead (off : Nat)
  /-- `BufWrite(a, b)`. -/
  | bufWrite (a : Nat) (b : Byte)
  /-- `BufRead(a)`. -/
  | bufRead (a : Nat)
  /-- The reset event. -/
  | reset
deriving DecidableEq, Repr

/-- A value a read returned to the host (70_reset_and_hazards.md R191). -/
inductive HostReply where
  | word (v : Word)
  | byte (b : Byte)
deriving DecidableEq, Repr

/-- The data buffer BUF (10_state.md R25): its size, and the bytes written since the last reset,
as a list in canonical form (`Memory.wf`). An unlisted address holds no value of the model's
choosing: it reads as the free byte drawn at index `draw` (70_reset_and_hazards.md R181; log
entry 2). -/
@[ext]
structure Memory where
  /-- BUFCAP, the size of the buffer in bytes (00_scope.md R6). -/
  cap : Nat
  /-- Index of the draw of the unspecified contents. -/
  draw : Nat
  /-- The bytes written since the last reset, addresses strictly rising. -/
  cells : List Host.Cell
deriving DecidableEq, Repr

/-- The working registers of the block transform (10_state.md R13). -/
@[ext]
structure Work where
  v0 : Word
  v1 : Word
  sum : Word
  rnd : BitVec 6
deriving DecidableEq, Repr

/-- The complete state (10_state.md R10), and the host's side of it (70_reset_and_hazards.md
R191). -/
@[ext]
structure State where
  /-- `K[0..3]`, the key registers (10_state.md R11). -/
  k : Words4
  /-- KEYVALID (10_state.md R17, R26). -/
  keyvalid : Bool
  /-- ERRCODE, 8 bits (10_state.md R17). -/
  errcode : BitVec 8
  /-- CTRL.PADFULL (10_state.md R18). -/
  padfull : Bool
  /-- LEN (10_state.md R19). -/
  len : Word
  /-- PADCNT (10_state.md R20). -/
  padcnt : Word
  /-- SLEN (10_state.md R21). -/
  slen : Word
  /-- `SEC[0..3]`, the staged secret (10_state.md R23). -/
  sec : Words4
  /-- BUF, the data buffer (10_state.md R25). -/
  buf : Memory
  /-- V0, V1, SUM, RND, the working registers (10_state.md R13). -/
  work : Work
  /-- The model's own: the next index at which a free value is drawn. -/
  draws : Nat
  /-- The model's own: the transactions the host has not yet made, next first. -/
  script : List HostEvent
  /-- The model's own: the values returned by reads, oldest first. -/
  returned : List HostReply
deriving DecidableEq, Repr

/-- Working registers whose values are unspecified: the free values of draw `n` (10_state.md
R13; log entry 3). -/
def freeWork (n : Nat) : Work :=
  { v0 := Config.freeV0 n, v1 := Config.freeV1 n, sum := Config.freeSum n, rnd := Config.freeRnd n }

/-- The machine right after reset (10_state.md R30), with no transaction pending and nothing yet
returned (log entry 4). -/
def State.reset : State where
  k := Words4.zero
  keyvalid := false
  errcode := 0
  padfull := false
  len := 0
  padcnt := 0
  slen := 0
  sec := Words4.zero
  buf := { cap := Config.BUFCAP, draw := 0, cells := [] }
  work := freeWork 0
  draws := 1
  script := []
  returned := []

/-- What one command or one transaction answers. -/
abbrev Answer := Host.Outcome State Fault Refusal

end Sys2Proof.Machine
end

