-- ==== Sys2Proof/Machine/Flags.lean ====
section
/-!
DEFINITION. The engine's only flags, KEYVALID, ERRCODE and PADFULL (10_state.md R26), as the
registers STATUS and CTRL present them (R17, R18), and the numbers of the result codes
(60_exceptions.md R160). The engine has no arithmetic condition codes (R26;
40_block_transform.md R89), so no command computes one.
-/

namespace Sys2Proof.Machine

/-- The number of each result code (60_exceptions.md R160). -/
def ResultCode.code : ResultCode → BitVec 8
  | .ok => 0
  | .invalidCiphertextSize => 1
  | .invalidPadding => 2
  | .illegalCommand => 3
  | .range => 4
  | .noKey => 5
  | .notBlockMultiple => 6

/-- One flag as a word with the flag in bit 0. -/
def flagWord (b : Bool) : Word := if b then 1 else 0

/-- STATUS as read: ERRCODE in bits 7:0, KEYVALID in bit 8, the rest zero (10_state.md R17). -/
def statusWord (s : State) : Word := s.errcode.setWidth 32 ||| shl32 (flagWord s.keyvalid) 8

/-- CTRL as read: PADFULL in bit 0, the rest zero (10_state.md R18). -/
def ctrlWord (s : State) : Word := flagWord s.padfull

/-- What a write to CTRL stores in PADFULL: bit 0 of the value (10_state.md R18). -/
def ctrlPadfull (v : Word) : Bool := v.getLsbD 0

/-- PADCNT as read: bits 3:0, the rest zero (10_state.md R20). -/
def padcntWord (s : State) : Word := s.padcnt &&& 0xF#32

end Sys2Proof.Machine
end

