-- ==== Sys2Proof/Machine/Ops.lean ====
section
/-!
DEFINITION. The operations every command is written over: byte and word conversion
(20_memory.md R42), the buffer memory (R43), the register updates, and the two ways a command
ends (60_exceptions.md R161).
-/

namespace Sys2Proof.Machine

/-! ## Bytes and words -/

/-- Byte `i` of a word, byte 0 the least significant: component `i` of `bytes_of_word`
(20_memory.md R42). -/
def byteOfWord (w : Word) (i : Nat) : Byte := w.extractLsb' (8 * i) 8

/-- `word_of_bytes`, the first byte at the lowest address (20_memory.md R42). -/
def wordOfBytes (b0 b1 b2 b3 : Byte) : Word :=
  BitVec.ofNat 32 (b0.toNat + 2 ^ 8 * b1.toNat + 2 ^ 16 * b2.toNat + 2 ^ 24 * b3.toNat)

/-- Register `i` of four (10_state.md R11, R23). -/
def regOf (r : Words4) (i : BitVec 2) : Word :=
  match i.toFin with
  | 0 => r.w0
  | 1 => r.w1
  | 2 => r.w2
  | 3 => r.w3

/-! ## The cell list and the buffer memory -/

/-- The byte listed at an address, if any. -/
def cellGet : List Host.Cell → Nat → Option Byte
  | [], _ => none
  | c :: m, a => if a = c.1 then some c.2 else cellGet m a

/-- List a byte at an address, keeping the addresses rising. -/
def cellSet : List Host.Cell → Nat → Byte → List Host.Cell
  | [], a, v => [(a, v)]
  | c :: m, a, v =>
    if a < c.1 then (a, v) :: c :: m
    else if a = c.1 then (a, v) :: m
    else c :: cellSet m a v

/-- What an address reads as: the byte written there last, and the unspecified byte of the last
reset where nothing has been written since (10_state.md R25; 70_reset_and_hazards.md R181). -/
def Memory.read (m : Memory) (a : Nat) : Byte := (cellGet m.cells a).getD (Config.freeByte m.draw a)

/-- Write one byte. -/
def Memory.write (m : Memory) (a : Nat) (v : Byte) : Memory := { m with cells := cellSet m.cells a v }

/-- The canonical form: a capacity the spec allows, addresses strictly rising, every address in
the buffer. -/
def Memory.wf (m : Memory) : Bool :=
  Config.capOk m.cap && decide (m.cells.Pairwise fun c d => c.1 < d.1)
    && m.cells.all fun c => decide (c.1 < m.cap)

/-! ## Register updates -/

def setErrcode (c : BitVec 8) (s : State) : State := { s with errcode := c }

def setBuf (m : Memory) (s : State) : State := { s with buf := m }

def setWork (w : Work) (s : State) : State := { s with work := w }

def setLen (v : Word) (s : State) : State := { s with len := v }

def setPadcnt (v : Word) (s : State) : State := { s with padcnt := v }

/-! ## Engine-side memory access (20_memory.md R43) -/

/-- `BUF[a]`, that is `MemRead(a, 1)` (20_memory.md R43). -/
def byteAt (s : State) (a : Nat) : Byte := s.buf.read a

/-- `MemRead(a, 4)` (20_memory.md R43). -/
def wordAt (s : State) (a : Nat) : Word :=
  wordOfBytes (byteAt s a) (byteAt s (a + 1)) (byteAt s (a + 2)) (byteAt s (a + 3))

/-- `MemWrite(a, 1, b)` (20_memory.md R43). -/
def storeByte (a : Nat) (b : Byte) (s : State) : State := setBuf (s.buf.write a b) s

/-- `MemWrite(a, 4, w)` (20_memory.md R43). -/
def storeWord (a : Nat) (w : Word) (s : State) : State :=
  storeByte (a + 3) (byteOfWord w 3) (storeByte (a + 2) (byteOfWord w 2)
    (storeByte (a + 1) (byteOfWord w 1) (storeByte a (byteOfWord w 0) s)))

/-- Write the byte `v` at `a`, `a + 1`, ..., `a + n - 1`, in ascending order
(42_padding_codec.md R111). -/
def storeFill (a : Nat) (v : Byte) : Nat → State → State
  | 0, s => s
  | n + 1, s => storeByte (a + n) v (storeFill a v n s)

/-! ## The end of a command (60_exceptions.md R161) -/

/-- `raise E`: the command ends with its result code and no further effect. This is all there is
of an exception on the engine: no vector, no saved register, no mode, and so nothing to return
from (60_exceptions.md R161, R163, R164). -/
def raise (e : ResultCode) (s : State) : Answer := .next (setErrcode e.code s)

/-- Success: the effects are applied and ERRCODE <- 0 (60_exceptions.md R161). -/
def succeed (s : State) : Answer := .next (setErrcode ResultCode.ok.code s)

end Sys2Proof.Machine
end

