-- ==== Sys2Proof/Machine/Operands.lean ====
section
/-!
DEFINITION. The operand forms of the commands: the block index of format B (30_encoding.md R62),
the buffer length LEN (10_state.md R19, 44_pipeline.md R147) and the staged secret
(10_state.md R23), and the bounds checks on them (60_exceptions.md R160).
-/

namespace Sys2Proof.Machine

/-- The byte address of block `n`: `8 * zext(ARG)` (30_encoding.md R62). -/
def blockAddr (n : Nat) : Nat := Config.BLOCK_BYTES * n

/-- Block `n` does not lie wholly inside BUF: `8*n + 8 > BUFCAP` (40_block_transform.md R87). -/
def blockOutOfRange (n : Nat) (s : State) : Bool := s.buf.cap < blockAddr n + Config.BLOCK_BYTES

/-- The length of the buffer as a number (10_state.md R19). -/
abbrev bufLen (s : State) : Nat := s.len.toNat

/-- `LEN + p > BUFCAP`; with `p = 0`, `LEN > BUFCAP` (42_padding_codec.md R112). -/
def lenOutOfRange (p : Nat) (s : State) : Bool := !decide (bufLen s + p ≤ s.buf.cap)

/-- `LEN mod 8 != 0` (43_block_stream.md R131). -/
def lenNotBlockMultiple (s : State) : Bool := bufLen s % Config.BLOCK_BYTES != 0

/-- The number of whole blocks of the buffer, `LEN / 8` (43_block_stream.md R130). -/
def blockCount (s : State) : Nat := bufLen s / Config.BLOCK_BYTES

/-- `SECBYTE(i)`: byte `i mod 4` of `SEC[i div 4]` (10_state.md R23, 41_key_material.md R101). -/
def secByte (sec : Words4) (i : Nat) : Byte :=
  byteOfWord (regOf sec (BitVec.ofNat 2 (i / 4))) (i % 4)

end Sys2Proof.Machine
end

