-- ==== Sys2Proof/Machine/Cipher.lean ====
section
/-!
DEFINITION. The block transform: the mixing function, the rounds, the 32-round encryption and
decryption over the working registers V0, V1, SUM, RND (40_block_transform.md R80 to R84, R89),
and its application to blocks of BUF (43_block_stream.md R130).
-/

namespace Sys2Proof.Machine

/-- The two directions of the transform (43_block_stream.md R130). -/
inductive Direction where
  | encrypt
  | decrypt
deriving DecidableEq, Repr

/-- `MIX(v, sum, k)` (40_block_transform.md R80). -/
def mix (v sum k : Word) : Word :=
  xor32 (add32 (xor32 (shl32 v 4) (shr32 v 5)) v) (add32 sum k)

/-- The key index `sum & 3` (40_block_transform.md R81 (c)). -/
def keyIndexLow (sum : Word) : BitVec 2 := (sum &&& 3#32).setWidth 2

/-- The key index `(sum >> 11) & 3` (40_block_transform.md R81 (c)). -/
def keyIndexHigh (sum : Word) : BitVec 2 := (shr32 sum 11 &&& 3#32).setWidth 2

/-- `EncRound` on the working registers; RND counts the round (40_block_transform.md R81, R82). -/
def encRound (k : Words4) (w : Work) : Work :=
  let v0 := add32 w.v0 (mix w.v1 w.sum (regOf k (keyIndexLow w.sum)))
  let sum := add32 w.sum Config.DELTA
  let v1 := add32 w.v1 (mix v0 sum (regOf k (keyIndexHigh sum)))
  { v0 := v0, v1 := v1, sum := sum, rnd := w.rnd + 1 }

/-- `DecRound` on the working registers (40_block_transform.md R83, R84). -/
def decRound (k : Words4) (w : Work) : Work :=
  let v1 := sub32 w.v1 (mix w.v0 w.sum (regOf k (keyIndexHigh w.sum)))
  let sum := sub32 w.sum Config.DELTA
  let v0 := sub32 w.v0 (mix v1 sum (regOf k (keyIndexLow sum)))
  { v0 := v0, v1 := v1, sum := sum, rnd := w.rnd + 1 }

/-- `n` rounds, the last one outermost. -/
def rounds (round : Work → Work) : Nat → Work → Work
  | 0, w => w
  | n + 1, w => round (rounds round n w)

/-- One round of a direction. -/
def cryptRound (d : Direction) (k : Words4) : Work → Work :=
  match d with
  | .encrypt => encRound k
  | .decrypt => decRound k

/-- SUM before the first round (40_block_transform.md R82, R84). -/
def sumInit : Direction → Word
  | .encrypt => 0
  | .decrypt => Config.SUM_INIT_DEC

/-- The working registers after the whole transform of the block `(v0, v1)`: loaded first, then
32 rounds (40_block_transform.md R82, R84). -/
def cryptWork (d : Direction) (k : Words4) (v0 v1 : Word) : Work :=
  rounds (cryptRound d k) Config.ROUNDS { v0 := v0, v1 := v1, sum := sumInit d, rnd := 0 }

/-- `encryptBlock` or `decryptBlock` as a function of two words (40_block_transform.md R82, R84). -/
def cryptBlock (d : Direction) (k : Words4) (v0 v1 : Word) : Word × Word :=
  ((cryptWork d k v0 v1).v0, (cryptWork d k v0 v1).v1)

/-- The working registers hold `w`, and V0, V1 are written back as the block at `a`
(40_block_transform.md R82, R87). -/
def storeBlock (a : Nat) (w : Work) (s : State) : State :=
  storeWord (a + 4) w.v1 (storeWord a w.v0 (setWork w s))

/-- Transform the eight bytes of BUF at `a` in place, through the working registers
(40_block_transform.md R87, R88; 43_block_stream.md R130). -/
def cipherBlock (d : Direction) (a : Nat) (s : State) : State :=
  storeBlock a (cryptWork d s.k (wordAt s a) (wordAt s (a + 4))) s

/-- `transformBlocks` over the first `n` blocks of BUF, in ascending offset order
(43_block_stream.md R130). -/
def transformBlocks (d : Direction) : Nat → State → State
  | 0, s => s
  | n + 1, s => cipherBlock d (blockAddr n) (transformBlocks d n s)

end Sys2Proof.Machine
end

