-- ==== Sys2Proof/Machine/Block.lean ====
section
/-!
DEFINITION. The single-block commands ENCBLK and DECBLK (40_block_transform.md R87, R88).
-/

namespace Sys2Proof.Machine

/-- Both single-block commands: the key check, the range check, the transform
(40_block_transform.md R87, R88). -/
def cryptBlockCommand (d : Direction) (n : Nat) (s : State) : Answer :=
  if s.keyvalid = false then raise .noKey s
  else if blockOutOfRange n s then raise .range s
  else succeed (cipherBlock d (blockAddr n) s)

/-- ENCBLK n (40_block_transform.md R87). -/
def execEncblk (n : Nat) (s : State) : Answer := cryptBlockCommand .encrypt n s

/-- DECBLK n (40_block_transform.md R88). -/
def execDecblk (n : Nat) (s : State) : Answer := cryptBlockCommand .decrypt n s

end Sys2Proof.Machine
end

