-- ==== Sys2Proof/Machine/Key.lean ====
section
/-!
DEFINITION. Key material: the derivation of the key from a secret and the commands KEYLOAD and
KEYCLR (41_key_material.md R100 to R102).
-/

namespace Sys2Proof.Machine

/-- Four key words from sixteen key bytes (41_key_material.md R100). -/
def keyOfBytes (kb : Nat → Byte) : Words4 where
  w0 := wordOfBytes (kb 0) (kb 1) (kb 2) (kb 3)
  w1 := wordOfBytes (kb 4) (kb 5) (kb 6) (kb 7)
  w2 := wordOfBytes (kb 8) (kb 9) (kb 10) (kb 11)
  w3 := wordOfBytes (kb 12) (kb 13) (kb 14) (kb 15)

/-- `deriveKey(secret)`: the first sixteen bytes, zero beyond the secret's end
(41_key_material.md R100). -/
def deriveKey (secret : List Byte) : Words4 := keyOfBytes fun i => secret.getD i 0

/-- The key byte KEYLOAD takes: the staged byte below SLEN, zero otherwise, SLEN unsigned
(41_key_material.md R101). -/
def stagedKeyByte (sec : Words4) (slen : Word) (i : Nat) : Byte :=
  if i < slen.toNat then secByte sec i else 0

/-- KEYLOAD (41_key_material.md R101). -/
def execKeyload (s : State) : Answer :=
  succeed { s with k := keyOfBytes (stagedKeyByte s.sec s.slen), keyvalid := true }

/-- KEYCLR (41_key_material.md R102). -/
def execKeyclr (s : State) : Answer :=
  succeed { s with k := Words4.zero, sec := Words4.zero, slen := 0, keyvalid := false }

end Sys2Proof.Machine
end

