-- ==== Sys2Proof/Machine/Padding.lean ====
section
/-!
DEFINITION. The padding codec and the commands PAD and UNPAD (42_padding_codec.md R110 to R114).
-/

namespace Sys2Proof.Machine

/-- `computePadding(L, padfull)` (42_padding_codec.md R110). -/
def computePadding (len : Nat) (padfull : Bool) : Nat :=
  let p := Config.BLOCK_BYTES - len % Config.BLOCK_BYTES
  if p = Config.BLOCK_BYTES ∧ padfull = false then 0 else p

/-- `applyPadding(p)`: `p` bytes of value `p` at LEN, and LEN grows by `p` (42_padding_codec.md
R111). -/
def applyPadding (p : Nat) (s : State) : State :=
  setLen (BitVec.ofNat 32 (bufLen s + p)) (storeFill (bufLen s) (BitVec.ofNat 8 p) p s)

/-- Check (d): the last `p` bytes of the buffer of length `len` all have the value `v`
(42_padding_codec.md R113). -/
def tailUniform (b : Nat → Byte) (len p : Nat) (v : Byte) : Bool :=
  (List.range p).all fun i => b (len - (i + 1)) == v

/-- `stripPadding(b, L)`: the number of bytes to remove, or none for `InvalidPadding`
(42_padding_codec.md R113, checks (a) to (d)). -/
def stripPadding (b : Nat → Byte) (len : Nat) : Option Nat :=
  if len = 0 then none
  else
    let p := (b (len - 1)).toNat
    if p = 0 ∨ Config.BLOCK_BYTES < p then none
    else if len < p then none
    else if tailUniform b len p (b (len - 1)) then some p
    else none

/-- The end of UNPAD and DECRYPT: `InvalidPadding`, or LEN shrinks by the count removed, which
PADCNT records (42_padding_codec.md R114, 44_pipeline.md R141). -/
def removePadding (s : State) : Answer :=
  match stripPadding (byteAt s) (bufLen s) with
  | none => raise .invalidPadding s
  | some p => succeed (setPadcnt (BitVec.ofNat 32 p) (setLen (BitVec.ofNat 32 (bufLen s - p)) s))

/-- PAD (42_padding_codec.md R112). -/
def execPad (s : State) : Answer :=
  if lenOutOfRange 0 s then raise .range s
  else
    let p := computePadding (bufLen s) s.padfull
    if lenOutOfRange p s then raise .range s
    else succeed (setPadcnt (BitVec.ofNat 32 p) (applyPadding p s))

/-- UNPAD (42_padding_codec.md R114). -/
def execUnpad (s : State) : Answer :=
  if lenOutOfRange 0 s then raise .range s
  else removePadding s

end Sys2Proof.Machine
end

