-- ==== Sys2Proof/Machine/Pipeline.lean ====
section
/-!
DEFINITION. The whole-buffer pipelines ENCRYPT and DECRYPT and the housekeeping command NOP
(44_pipeline.md R140 to R142).
-/

namespace Sys2Proof.Machine

/-- ENCRYPT (44_pipeline.md R140). -/
def execEncrypt (s : State) : Answer :=
  if s.keyvalid = false then raise .noKey s
  else if lenOutOfRange 0 s then raise .range s
  else
    let p := computePadding (bufLen s) s.padfull
    if lenOutOfRange p s then raise .range s
    else
      let t := applyPadding p s
      succeed (setPadcnt (BitVec.ofNat 32 p) (transformBlocks .encrypt (blockCount t) t))

/-- DECRYPT (44_pipeline.md R141). -/
def execDecrypt (s : State) : Answer :=
  if s.keyvalid = false then raise .noKey s
  else if lenOutOfRange 0 s then raise .range s
  else if bufLen s = 0 ∨ lenNotBlockMultiple s then raise .invalidCiphertextSize s
  else removePadding (transformBlocks .decrypt (blockCount s) s)

/-- NOP (44_pipeline.md R142). -/
def execNop (s : State) : Answer := succeed s

end Sys2Proof.Machine
end

