-- ==== Sys2Proof/Machine/Stream.lean ====
section
/-!
DEFINITION. The block stream commands ENCBUF and DECBUF (43_block_stream.md R131, R132).
-/

namespace Sys2Proof.Machine

/-- Both stream commands: the checks in the order of their pseudocode, then every block
(43_block_stream.md R131, R132). -/
def cryptBufCommand (d : Direction) (s : State) : Answer :=
  if s.keyvalid = false then raise .noKey s
  else if lenOutOfRange 0 s then raise .range s
  else if lenNotBlockMultiple s then raise .notBlockMultiple s
  else succeed (transformBlocks d (blockCount s) s)

/-- ENCBUF (43_block_stream.md R131). -/
def execEncbuf (s : State) : Answer := cryptBufCommand .encrypt s

/-- DECBUF (43_block_stream.md R132). -/
def execDecbuf (s : State) : Answer := cryptBufCommand .decrypt s

end Sys2Proof.Machine
end

