-- ==== Sys2Proof/Machine/HostPort.lean ====
section
/-!
DEFINITION. The engine's side of the host's transactions (20_memory.md R41): the register map
(10_state.md R15 to R24), the write to CMD that executes a command (R16; 30_encoding.md R64,
R65, R67), the buffer bytes (10_state.md R25), and the reset event (70_reset_and_hazards.md R180).
-/

namespace Sys2Proof.Machine

/-- The registers of the map (10_state.md R15). -/
inductive Reg where
  | cmd
  | status
  | ctrl
  | len
  | padcnt
  | slen
  | cap
  | reserved
  | sec0
  | sec1
  | sec2
  | sec3
deriving DecidableEq, Repr

/-- The offset of each register (10_state.md R15). -/
def Reg.offset : Reg → Nat
  | .cmd => 0x00
  | .status => 0x04
  | .ctrl => 0x08
  | .len => 0x0C
  | .padcnt => 0x10
  | .slen => 0x14
  | .cap => 0x18
  | .reserved => 0x1C
  | .sec0 => 0x20
  | .sec1 => 0x24
  | .sec2 => 0x28
  | .sec3 => 0x2C

/-- The register at an offset; none where the offset is no transaction of the interface
(10_state.md R15, R24). -/
def regAt : Nat → Option Reg
  | 0x00 => some .cmd
  | 0x04 => some .status
  | 0x08 => some .ctrl
  | 0x0C => some .len
  | 0x10 => some .padcnt
  | 0x14 => some .slen
  | 0x18 => some .cap
  | 0x1C => some .reserved
  | 0x20 => some .sec0
  | 0x24 => some .sec1
  | 0x28 => some .sec2
  | 0x2C => some .sec3
  | _ => none

/-- The value a register reads as (10_state.md R16 to R24). -/
def readReg (r : Reg) (s : State) : Word :=
  match r with
  | .cmd => 0
  | .status => statusWord s
  | .ctrl => ctrlWord s
  | .len => s.len
  | .padcnt => padcntWord s
  | .slen => s.slen
  | .cap => BitVec.ofNat 32 s.buf.cap
  | .reserved => 0
  | .sec0 => s.sec.w0
  | .sec1 => s.sec.w1
  | .sec2 => s.sec.w2
  | .sec3 => s.sec.w3

/-- Execute the command word `w` to completion; a word that is no command ends with
`IllegalCommand` (30_encoding.md R64, R65, R67). -/
def runCommand (w : Word) (s : State) : Answer :=
  match decode w with
  | .command i => exec i s
  | .illegal _ => raise .illegalCommand s

/-- Between commands the working registers hold unspecified values: a fresh draw (10_state.md
R13; log entry 3). -/
def forgetWork (s : State) : State := { s with work := freeWork s.draws, draws := s.draws + 1 }

/-- A command has completed: the host's write to CMD returns (10_state.md R16). -/
def commandDone : Answer → Answer
  | .next s => .next (forgetWork s)
  | .fault f => .fault f
  | .refused r => .refused r

/-- `RegWrite` at a register of the map (10_state.md R16 to R24): CMD executes, the read-only and
reserved registers ignore the write. -/
def writeReg (r : Reg) (v : Word) (s : State) : Answer :=
  match r with
  | .cmd => commandDone (runCommand v s)
  | .status => .next s
  | .ctrl => .next { s with padfull := ctrlPadfull v }
  | .len => .next (setLen v s)
  | .padcnt => .next s
  | .slen => .next { s with slen := v }
  | .cap => .next s
  | .reserved => .next s
  | .sec0 => .next { s with sec := { s.sec with w0 := v } }
  | .sec1 => .next { s with sec := { s.sec with w1 := v } }
  | .sec2 => .next { s with sec := { s.sec with w2 := v } }
  | .sec3 => .next { s with sec := { s.sec with w3 := v } }

/-- A read returns a value to the host and changes nothing else (20_memory.md R41, R46;
70_reset_and_hazards.md R191). -/
def reply (r : HostReply) (s : State) : State := { s with returned := s.returned ++ [r] }

/-- The reset event: every register to its value of 10_state.md R30, BUF and the working registers
unspecified, a fresh draw of both (70_reset_and_hazards.md R180, R181). The capacity is the
engine's parameter; what the host has read and has still to do is the host's. -/
def resetEngine (s : State) : State :=
  { State.reset with
    buf := { cap := s.buf.cap, draw := s.draws, cells := [] }
    work := freeWork s.draws
    draws := s.draws + 1
    script := s.script
    returned := s.returned }

/-- One event from outside, taken by the engine (20_memory.md R41, R47, R50). -/
def accept (e : HostEvent) (s : State) : Answer :=
  match e with
  | .regWrite off v =>
    match regAt off with
    | some r => writeReg r v s
    | none => .refused (.registerAccess off)
  | .regRead off =>
    match regAt off with
    | some r => .next (reply (.word (readReg r s)) s)
    | none => .refused (.registerAccess off)
  | .bufWrite a b => if a < s.buf.cap then .next (storeByte a b s) else .refused (.bufferAccess a)
  | .bufRead a => if a < s.buf.cap then .next (reply (.byte (byteAt s a)) s) else .refused (.bufferAccess a)
  | .reset => .next (resetEngine s)

/-- No transaction is pending: the engine is idle and nothing changes (60_exceptions.md R170,
70_reset_and_hazards.md R180, R191). -/
def idle (s : State) : Answer := .next s

end Sys2Proof.Machine
end

