-- ==== Sys2Proof/Machine/Script.lean ====
section
/-!
DEFINITION. The host-script notation: what each line and each pseudo-instruction stands for, as
the transactions the host makes (30_encoding.md R68, R69).
-/

namespace Sys2Proof.Machine.Script

/-- `WR reg, value` (30_encoding.md R68). -/
def wr (r : Reg) (v : Word) : List HostEvent := [.regWrite r.offset v]

/-- `RD reg` (30_encoding.md R68). -/
def rd (r : Reg) : List HostEvent := [.regRead r.offset]

/-- `BW addr, b0 b1 ...`, in ascending order (30_encoding.md R68). -/
def bw : Nat → List Byte → List HostEvent
  | _, [] => []
  | a, b :: bs => .bufWrite a b :: bw (a + 1) bs

/-- `BR addr, count` (30_encoding.md R68). -/
def br (a : Nat) : Nat → List HostEvent
  | 0 => []
  | n + 1 => br a n ++ [.bufRead (a + n)]

/-- A command line: the write of its word to CMD (30_encoding.md R68). -/
def command (i : Instr) : List HostEvent := wr .cmd (encode i)

/-- `SETKEY b0 b1 ...`: stage the first sixteen bytes, zero beyond the end, and the length, then
KEYLOAD (30_encoding.md R69). DESIGN CHOICE: the length is written to SLEN modulo 2^32; the spec does not
say what a host writes for a secret of 2^32 bytes or more (20_memory.md R51; log entry 8). -/
def setkey (secret : List Byte) : List HostEvent :=
  wr .sec0 (deriveKey secret).w0 ++ wr .sec1 (deriveKey secret).w1 ++ wr .sec2 (deriveKey secret).w2
    ++ wr .sec3 (deriveKey secret).w3 ++ wr .slen (BitVec.ofNat 32 secret.length) ++ command .keyload

/-- `LOAD b0 b1 ...` (30_encoding.md R69). DESIGN CHOICE: the length is written to LEN modulo 2^32, where
the spec does not say what a host writes for 2^32 bytes or more (log entry 8). -/
def load (data : List Byte) : List HostEvent := bw 0 data ++ wr .len (BitVec.ofNat 32 data.length)

/-- `DUMP`, where LEN reads as `len` (30_encoding.md R69). -/
def dump (len : Nat) : List HostEvent := rd .status ++ rd .len ++ rd .padcnt ++ br 0 len

end Sys2Proof.Machine.Script
end

