-- ==== Sys2Proof/Machine/Step.lean ====
section
/-!
DEFINITION. The step: one transaction of the host (20_memory.md R47).
-/

namespace Sys2Proof.Machine

/-- One step: the engine takes the host's next transaction, if there is one (20_memory.md R47,
44_pipeline.md R146). -/
def step (s : State) : Host.Outcome State Fault Refusal :=
  match s.script with
  | [] => idle s
  | e :: rest => accept e { s with script := rest }

/-- `s` with the write of the command word `w` to CMD as the host's next transaction: that is
where a step takes its command from (44_pipeline.md R146; log entry 4). -/
def State.withFetchWord (s : State) (nbits w : Nat) : State :=
  { s with script := .regWrite Reg.cmd.offset (BitVec.ofNat 32 (w % 2 ^ nbits)) :: s.script }

end Sys2Proof.Machine
end

