-- ==== Sys2Proof/Safety.lean ====
section
/-!
DEFINITION. The terms claims are stated in: the invariant of the machine, the transactions of the
interface, safe and reachable states, and the byte-level description of the block transform over
a buffer.
-/

namespace Sys2Proof.Machine

/-- What every state of a run meets: BUF in canonical form and of a size the spec allows
(00_scope.md R6, 10_state.md R25), a result code of the list (60_exceptions.md R160), a padCount in
0..8 (10_state.md R20), no key material without KEYVALID (10_state.md R30, 41_key_material.md
R102), and BUF's draw an index already used. -/
structure State.Inv (s : State) : Prop where
  bufWf : s.buf.wf = true
  errcodeKnown : s.errcode.toNat ≤ 6
  padcntBound : s.padcnt.toNat ≤ 8
  noKeyIsZero : s.keyvalid = false → s.k = Words4.zero
  drawUsed : s.buf.draw < s.draws

/-- The events of the interface, for a buffer of `cap` bytes (20_memory.md R41, R50). -/
def HostEvent.inInterface (cap : Nat) : HostEvent → Bool
  | .regWrite off _ => off % 4 == 0 && decide (off < 0x30)
  | .regRead off => off % 4 == 0 && decide (off < 0x30)
  | .bufWrite a _ => decide (a < cap)
  | .bufRead a => decide (a < cap)
  | .reset => true

/-- A run is safe when every transaction the host has still to make is one of the interface. -/
def State.Safe (s : State) : Prop := ∀ e ∈ s.script, HostEvent.inInterface s.buf.cap e = true

/-- Reachable from the reset state with some script of the host (70_reset_and_hazards.md R191). -/
inductive State.Reachable : State → Prop where
  | init (script : List HostEvent) : State.Reachable { State.reset with script := script }
  | next {s t : State} : State.Reachable s → step s = .next t → State.Reachable t

/-- The two words of block `n` of a byte function (20_memory.md R43). -/
def blockOf (b : Nat → Byte) (n : Nat) : Word × Word :=
  (wordOfBytes (b (8 * n)) (b (8 * n + 1)) (b (8 * n + 2)) (b (8 * n + 3)),
   wordOfBytes (b (8 * n + 4)) (b (8 * n + 5)) (b (8 * n + 6)) (b (8 * n + 7)))

/-- Byte `i` of a block of two words, `i` in 0..7 (20_memory.md R42, R43). -/
def byteOfBlock (v : Word × Word) (i : Nat) : Byte :=
  if i < 4 then byteOfWord v.1 i else byteOfWord v.2 (i - 4)

/-- The byte at address `a` when every block of the byte function is transformed on its own
(43_block_stream.md R130, R133). -/
def streamByte (d : Direction) (k : Words4) (b : Nat → Byte) (a : Nat) : Byte :=
  byteOfBlock (cryptBlock d k (blockOf b (a / 8)).1 (blockOf b (a / 8)).2) (a % 8)

/-- A buffer of length `len` with `p` bytes of value `p` appended (42_padding_codec.md R111). -/
def paddedByte (b : Nat → Byte) (len p : Nat) (a : Nat) : Byte :=
  if len ≤ a ∧ a < len + p then BitVec.ofNat 8 p else b a

/-! ## The rounds as the spec writes them -/

/-- `K[i]` by number (40_block_transform.md R81). -/
def keyWord (k : Words4) (i : Nat) : Word :=
  if i = 0 then k.w0 else if i = 1 then k.w1 else if i = 2 then k.w2 else k.w3

/-- `EncRound(v0, v1, sum)`, the key indices as the low two bits of `sum` and as bits 12:11 of the
incremented `sum` (40_block_transform.md R81). -/
def encRoundSpec (k : Words4) (v : Word × Word × Word) : Word × Word × Word :=
  (v.1 + mix v.2.1 v.2.2 (keyWord k (v.2.2.toNat % 4)),
   v.2.1 + mix (v.1 + mix v.2.1 v.2.2 (keyWord k (v.2.2.toNat % 4))) (v.2.2 + 0x9E3779B9#32)
     (keyWord k ((v.2.2 + 0x9E3779B9#32).toNat / 2 ^ 11 % 4)),
   v.2.2 + 0x9E3779B9#32)

/-- `DecRound(v0, v1, sum)` (40_block_transform.md R83). -/
def decRoundSpec (k : Words4) (v : Word × Word × Word) : Word × Word × Word :=
  (v.1 - mix (v.2.1 - mix v.1 v.2.2 (keyWord k (v.2.2.toNat / 2 ^ 11 % 4))) (v.2.2 - 0x9E3779B9#32)
     (keyWord k ((v.2.2 - 0x9E3779B9#32).toNat % 4)),
   v.2.1 - mix v.1 v.2.2 (keyWord k (v.2.2.toNat / 2 ^ 11 % 4)),
   v.2.2 - 0x9E3779B9#32)

/-! ## Result codes -/

/-- The codes a command may end with (60_exceptions.md R160, R169). -/
def Instr.resultCodes : Instr → List (BitVec 8)
  | .nop => [0]
  | .keyload => [0]
  | .encblk _ => [0, 4, 5]
  | .decblk _ => [0, 4, 5]
  | .pad => [0, 4]
  | .unpad => [0, 2, 4]
  | .encbuf => [0, 4, 5, 6]
  | .decbuf => [0, 4, 5, 6]
  | .encrypt => [0, 4, 5]
  | .decrypt => [0, 1, 2, 4, 5]
  | .keyclr => [0]

/-- The commands that need the key (10_state.md R26). -/
def Instr.needsKey : Instr → Bool
  | .nop => false
  | .keyload => false
  | .encblk _ => true
  | .decblk _ => true
  | .pad => false
  | .unpad => false
  | .encbuf => true
  | .decbuf => true
  | .encrypt => true
  | .decrypt => true
  | .keyclr => false

/-- The buffer commands, which use LEN (60_exceptions.md R160, R162). -/
def Instr.usesLen : Instr → Bool
  | .nop => false
  | .keyload => false
  | .encblk _ => false
  | .decblk _ => false
  | .pad => true
  | .unpad => true
  | .encbuf => true
  | .decbuf => true
  | .encrypt => true
  | .decrypt => true
  | .keyclr => false

/-- The result code of a command by the priority list of 60_exceptions.md R162, items 2 to 6, and
0 where none applies. -/
def firstCode (i : Instr) (s : State) : BitVec 8 :=
  if Instr.needsKey i = true ∧ s.keyvalid = false then 5
  else if Instr.usesLen i = true ∧ s.buf.cap < s.len.toNat then 4
  else match i with
    | .nop => 0
    | .keyload => 0
    | .keyclr => 0
    | .encblk n => if s.buf.cap < 8 * n + 8 then 4 else 0
    | .decblk n => if s.buf.cap < 8 * n + 8 then 4 else 0
    | .encbuf => if s.len.toNat % 8 ≠ 0 then 6 else 0
    | .decbuf => if s.len.toNat % 8 ≠ 0 then 6 else 0
    | .pad => if s.buf.cap < s.len.toNat + computePadding s.len.toNat s.padfull then 4 else 0
    | .encrypt => if s.buf.cap < s.len.toNat + computePadding s.len.toNat s.padfull then 4 else 0
    | .unpad => if stripPadding (byteAt s) s.len.toNat = none then 2 else 0
    | .decrypt =>
      if s.len.toNat = 0 ∨ s.len.toNat % 8 ≠ 0 then 1
      else if stripPadding (streamByte .decrypt s.k (byteAt s)) s.len.toNat = none then 2 else 0

end Sys2Proof.Machine
end

