-- ==== Sys2Proof/Certificates/Slice0/Obligations.lean ====
section
/-!
DEFINITION. The statements about the engine, each formalising rules of the spec. A frame is said as
`t = { s with ... }`, which leaves every field not named unchanged, and the bytes of BUF are said
through the read of one byte, `byteAt`. `Config.capOk s.buf.cap` is the spec's own constraint on the
parameter BUFCAP (00_scope.md R6).
-/

open Sys2Proof Sys2Proof.Machine

/-! ## Encoding -/

/-- 30_encoding.md R60 to R67: no bit of a command is lost in its word. -/
def Obligations.DecodeOfEncodeIsTheCommand : Prop :=
  ∀ i : Instr, i.wf = true → decode (encode i) = .command i

/-- 30_encoding.md R60 to R67: each legal word is the word of exactly one command, a well-formed one. -/
def Obligations.EncodeOfDecodeIsTheWord : Prop :=
  ∀ (w : Word) (i : Instr), decode w = .command i → i.wf = true ∧ encode i = w

/-- 30_encoding.md R67: decoding, total on all words, by OPC and ARG as numbers, and first of all
checks. -/
def Obligations.DecodingFollowsOpcAndArg : Prop :=
  ∀ w : Word,
    ((10 < w.toNat % 256 ∨ (w.toNat % 256 ≠ 2 ∧ w.toNat % 256 ≠ 3 ∧ w.toNat / 256 ≠ 0)) →
      (∃ why, decode w = .illegal why) ∧ ∀ s : State, runCommand w s = .next { s with errcode := 3 }) ∧
    (¬(10 < w.toNat % 256 ∨ (w.toNat % 256 ≠ 2 ∧ w.toNat % 256 ≠ 3 ∧ w.toNat / 256 ≠ 0)) →
      ∃ i : Instr, decode w = .command i ∧ i.opcode = w.toNat % 256 ∧ i.arg = w.toNat / 256 ∧
        ∀ s : State, runCommand w s = exec i s)

/-- 30_encoding.md R64: a word with a reserved OPC, whatever its ARG, as a command, and as the host's
next write to CMD, where only the working registers, unspecified between commands (10_state.md R13),
are left open beside ERRCODE. -/
def Obligations.ReservedOpcodeSetsIllegalCommand : Prop :=
  ∀ (s : State) (w : Word), 0x0B ≤ w.toNat % 256 →
    runCommand w s = .next { s with errcode := 3 } ∧
    ∀ rest : List HostEvent, s.script = .regWrite 0 w :: rest →
      ∃ t, step s = .next t ∧
        t = { s with errcode := 3, script := rest, work := t.work, draws := t.draws }

/-- 30_encoding.md R65: a format N word whose ARG is not zero, and the number of legal words. -/
def Obligations.NonzeroArgIsIllegalAndLegalWordsAreCounted : Prop :=
  (∀ (s : State) (w : Word),
    w.toNat % 256 ≤ 0x0A → w.toNat % 256 ≠ 2 → w.toNat % 256 ≠ 3 → w.toNat / 256 ≠ 0 →
    runCommand w s = .next { s with errcode := 3 } ∧
    ∀ rest : List HostEvent, s.script = .regWrite 0 w :: rest →
      ∃ t, step s = .next t ∧
        t = { s with errcode := 3, script := rest, work := t.work, draws := t.draws }) ∧
  (∀ w : Word, (∃ i, decode w = .command i) ↔
    (w.toNat ≤ 0x0A ∧ w.toNat ≠ 2 ∧ w.toNat ≠ 3) ∨ w.toNat % 256 = 2 ∨ w.toNat % 256 = 3) ∧
  Set.ncard {w : Word | ∃ i, decode w = .command i} = 9 + 2 * 2 ^ 24

/-- 30_encoding.md R63: the word of each command, from the opcode map. -/
def Obligations.CommandWordsOfTheOpcodeMap : Prop :=
  decode 0x00000000#32 = .command .nop ∧ decode 0x00000001#32 = .command .keyload ∧
  decode 0x00000102#32 = .command (.encblk 1) ∧ decode 0xFFFFFF02#32 = .command (.encblk 0xFFFFFF) ∧
  decode 0x00000803#32 = .command (.decblk 8) ∧ decode 0xFFFFFF03#32 = .command (.decblk 0xFFFFFF) ∧
  decode 0x00000004#32 = .command .pad ∧
  decode 0x00000005#32 = .command .unpad ∧ decode 0x00000006#32 = .command .encbuf ∧
  decode 0x00000007#32 = .command .decbuf ∧ decode 0x00000008#32 = .command .encrypt ∧
  decode 0x00000009#32 = .command .decrypt ∧ decode 0x0000000A#32 = .command .keyclr

/-! ## The step and the host's transactions -/

/-- 10_state.md R16, 20_memory.md R47: when the host's next transaction writes a legal word to CMD,
the step is `exec` of its command on the state with that transaction taken; what the step adds is
that the working registers are unspecified again afterwards (R13; log entry 3). -/
def Obligations.StepRunsTheDecodedCommand : Prop :=
  ∀ (s : State) (w : Word) (rest : List HostEvent) (i : Instr), s.script = .regWrite 0 w :: rest →
    decode w = .command i →
    ∃ t, exec i { s with script := rest } = .next t ∧ t.script = rest ∧
      step s = .next { t with work := freeWork t.draws, draws := t.draws + 1 }

/-- 10_state.md R15 to R24: the value each register reads as, the fields of STATUS, CTRL and PADCNT in
numbers; a read changes nothing else (20_memory.md R41, R46). -/
def Obligations.RegisterReadsFollowTheMap : Prop :=
  ∀ (s : State) (off : Nat) (rest : List HostEvent), s.script = .regRead off :: rest →
    off % 4 = 0 → off < 0x30 →
    ∃ v : Word, step s = .next { s with script := rest, returned := s.returned ++ [.word v] } ∧
      (off = 0x00 → v = 0) ∧
      (off = 0x04 → v.toNat = s.errcode.toNat + 256 * s.keyvalid.toNat) ∧
      (off = 0x08 → v.toNat = s.padfull.toNat) ∧
      (off = 0x0C → v = s.len) ∧
      (off = 0x10 → v.toNat = s.padcnt.toNat % 16) ∧
      (off = 0x14 → v = s.slen) ∧
      (off = 0x18 → v.toNat = s.buf.cap % 2 ^ 32) ∧
      (off = 0x1C → v = 0) ∧
      (off = 0x20 → v = s.sec.w0) ∧ (off = 0x24 → v = s.sec.w1) ∧
      (off = 0x28 → v = s.sec.w2) ∧ (off = 0x2C → v = s.sec.w3)

/-- 10_state.md R15 to R24: what a write to each register but CMD does. -/
def Obligations.RegisterWritesFollowTheMap : Prop :=
  ∀ (s : State) (off : Nat) (v : Word) (rest : List HostEvent), s.script = .regWrite off v :: rest →
    off % 4 = 0 → off < 0x30 → off ≠ 0x00 →
    ∃ t, step s = .next t ∧
      (off = 0x04 ∨ off = 0x10 ∨ off = 0x18 ∨ off = 0x1C → t = { s with script := rest }) ∧
      (off = 0x08 → t = { s with script := rest, padfull := decide (v.toNat % 2 = 1) }) ∧
      (off = 0x0C → t = { s with script := rest, len := v }) ∧
      (off = 0x14 → t = { s with script := rest, slen := v }) ∧
      (off = 0x20 → t = { s with script := rest, sec := { s.sec with w0 := v } }) ∧
      (off = 0x24 → t = { s with script := rest, sec := { s.sec with w1 := v } }) ∧
      (off = 0x28 → t = { s with script := rest, sec := { s.sec with w2 := v } }) ∧
      (off = 0x2C → t = { s with script := rest, sec := { s.sec with w3 := v } })

/-- 20_memory.md R41: BufWrite and BufRead; LEN does not move, a read changes nothing. -/
def Obligations.BufferTransactionsMoveOneByte : Prop :=
  ∀ (s : State) (a : Nat) (rest : List HostEvent), a < s.buf.cap →
    (∀ b : Byte, s.script = .bufWrite a b :: rest →
      ∃ t, step s = .next t ∧ t = { s with script := rest, buf := t.buf } ∧ t.buf.cap = s.buf.cap ∧
        ∀ x, byteAt t x = if x = a then b else byteAt s x) ∧
    (s.script = .bufRead a :: rest →
      step s = .next { s with script := rest, returned := s.returned ++ [.byte (byteAt s a)] })

/-- 20_memory.md R50: a transaction of the interface completes, and one outside it is refused, and
nothing else is. -/
def Obligations.ExactlyOutsideTransactionsAreRefused : Prop :=
  ∀ (s : State) (e : HostEvent) (rest : List HostEvent), s.script = e :: rest →
    (HostEvent.inInterface s.buf.cap e = true → ∃ t, step s = .next t ∧ t.script = rest) ∧
    (HostEvent.inInterface s.buf.cap e = false → ∃ r, step s = .refused r)

/-- 70_reset_and_hazards.md R180, R181, 10_state.md R30: the reset event, at any state: every register
to its reset value, the parameter kept; the bytes of BUF and the working registers are left open. -/
def Obligations.ResetEventGivesTheResetValues : Prop :=
  ∀ (s : State) (rest : List HostEvent), s.script = .reset :: rest →
    ∃ t, step s = .next t ∧ t.k = ⟨0, 0, 0, 0⟩ ∧ t.keyvalid = false ∧ t.errcode = 0 ∧ t.padfull = false ∧
      t.len = 0 ∧ t.padcnt = 0 ∧ t.slen = 0 ∧ t.sec = ⟨0, 0, 0, 0⟩ ∧ t.buf.cap = s.buf.cap ∧
      statusWord t = 0 ∧ t.script = rest ∧ t.returned = s.returned

/-- 10_state.md R30: the values of the reset state that the spec gives. -/
def Obligations.ResetStateHasTheSpecsValues : Prop :=
  State.reset.k = ⟨0, 0, 0, 0⟩ ∧ State.reset.keyvalid = false ∧ State.reset.errcode = 0 ∧
  State.reset.padfull = false ∧ State.reset.len = 0 ∧ State.reset.padcnt = 0 ∧ State.reset.slen = 0 ∧
  State.reset.sec = ⟨0, 0, 0, 0⟩ ∧ readReg .status State.reset = 0 ∧
  (readReg .cap State.reset).toNat = Config.BUFCAP

/-- 10_state.md R11, 60_exceptions.md R167: no transaction lets the host read the key registers: the
values returned by a step are the same whatever `K` holds. -/
def Obligations.KeyRegistersAreUnreadable : Prop :=
  ∀ (s t t' : State) (k' : Words4), step s = .next t → step { s with k := k' } = .next t' →
    t'.returned = t.returned

/-- 20_memory.md R42 to R44: bytes and words, little-endian: the two conversions in numbers, each other's
inverse, and the engine's word accesses made of them. -/
def Obligations.WordAccessesAreLittleEndian : Prop :=
  (∀ b0 b1 b2 b3 : Byte, (wordOfBytes b0 b1 b2 b3).toNat =
    b0.toNat + 2 ^ 8 * b1.toNat + 2 ^ 16 * b2.toNat + 2 ^ 24 * b3.toNat) ∧
  (∀ (w : Word) (i : Nat), i < 4 → (byteOfWord w i).toNat = w.toNat / 2 ^ (8 * i) % 256) ∧
  (∀ w : Word, wordOfBytes (byteOfWord w 0) (byteOfWord w 1) (byteOfWord w 2) (byteOfWord w 3) = w) ∧
  (∀ b0 b1 b2 b3 : Byte, byteOfWord (wordOfBytes b0 b1 b2 b3) 0 = b0 ∧ byteOfWord (wordOfBytes b0 b1 b2 b3) 1 = b1 ∧
    byteOfWord (wordOfBytes b0 b1 b2 b3) 2 = b2 ∧ byteOfWord (wordOfBytes b0 b1 b2 b3) 3 = b3) ∧
  ∀ (s : State) (a : Nat) (w : Word), wordAt (storeWord a w s) a = w ∧
    (∀ i, i < 4 → byteAt (storeWord a w s) (a + i) = byteOfWord w i) ∧
    ∀ x, x < a ∨ a + 4 ≤ x → byteAt (storeWord a w s) x = byteAt s x

/-! ## The invariant and safe runs -/

/-- Every step keeps the invariant: BUF canonical and inside its capacity, ERRCODE a known code
(60_exceptions.md R160), PADCNT in 0..8 (10_state.md R20), no key words without KEYVALID. -/
def Obligations.EveryStepKeepsTheInvariant : Prop :=
  ∀ s t : State, s.Inv → step s = .next t → t.Inv

/-- The reset state meets the invariant, whatever the host is about to do. -/
def Obligations.ResetStateMeetsTheInvariant : Prop :=
  ∀ script : List HostEvent, State.Inv { State.reset with script := script }

/-- A run that keeps to the interface never stops, and the parameter never changes (20_memory.md R50,
60_exceptions.md R161). By R191 of 70_reset_and_hazards.md a run ends when its list is exhausted; that a
step is still taken there, and is idle, is the model's choice (log entry 4), and that such a step changes
nothing is R170 of 60_exceptions.md and R180. That reset stands in the list is the model's choice too
(log entry 7). -/
def Obligations.SafeRunsNeverStop : Prop :=
  (∀ s : State, s.Safe → ∃ t, step s = .next t ∧ t.Safe ∧ t.buf.cap = s.buf.cap) ∧
  ∀ s : State, s.script = [] → step s = .next s

/-! ## How a command ends -/

/-- 60_exceptions.md R160, R161, R169: every command on every state completes, with one of the codes its
row of the table allows; NOP, KEYLOAD and KEYCLR cannot fail. -/
def Obligations.EveryCommandCompletesWithAListedCode : Prop :=
  ∀ (i : Instr) (s : State), ∃ t, exec i s = .next t ∧ t.errcode ∈ Instr.resultCodes i

/-- 60_exceptions.md R162: the priority of the errors. -/
def Obligations.TheFirstApplicableErrorIsReported : Prop :=
  ∀ (w : Word) (s : State), ∃ t, runCommand w s = .next t ∧
    t.errcode = match decode w with
      | .illegal _ => 3
      | .command i => firstCode i s

/-- 60_exceptions.md R163: a failed command, an illegal word among them, changes ERRCODE and nothing
else, but for DECRYPT ending in `InvalidPadding`, from which ENCBUF leads back to the ciphertext. -/
def Obligations.FailedCommandChangesOnlyErrcode : Prop :=
  ∀ (w : Word) (s t : State), runCommand w s = .next t → t.errcode ≠ 0 →
    (¬(decode w = .command .decrypt ∧ t.errcode = 2) → t = { s with errcode := t.errcode }) ∧
    (decode w = .command .decrypt → t.errcode = 2 →
      t = { s with errcode := 2, buf := t.buf, work := t.work } ∧ t.buf.cap = s.buf.cap ∧
      (∀ a, byteAt t a =
        if a < s.len.toNat then streamByte .decrypt s.k (byteAt s) a else byteAt s a) ∧
      ∃ u, exec .encbuf t = .next u ∧ u.errcode = 0 ∧ ∀ a, byteAt u a = byteAt s a)

/-- 10_state.md R11, R18, R23, R26: which commands write the key registers, KEYVALID, the staged secret
and its length; no command writes PADFULL or anything of the host's. -/
def Obligations.OnlyKeyCommandsWriteKeyState : Prop :=
  ∀ (i : Instr) (s t : State), exec i s = .next t →
    (i ≠ .keyload → i ≠ .keyclr → t.k = s.k ∧ t.keyvalid = s.keyvalid) ∧
    (i ≠ .keyclr → t.sec = s.sec ∧ t.slen = s.slen) ∧
    t.padfull = s.padfull ∧ t.script = s.script ∧ t.returned = s.returned ∧ t.buf.cap = s.buf.cap

/-- 10_state.md R19, R20: LEN and PADCNT change only on success of PAD, ENCRYPT, UNPAD, DECRYPT, and how
the sizes to report come out of them. -/
def Obligations.LenAndPadcntChangeOnlyOnSuccess : Prop :=
  ∀ (i : Instr) (s t : State), exec i s = .next t →
    (t.errcode ≠ 0 → t.len = s.len ∧ t.padcnt = s.padcnt) ∧
    (i ≠ .pad → i ≠ .encrypt → i ≠ .unpad → i ≠ .decrypt → t.len = s.len ∧ t.padcnt = s.padcnt) ∧
    (i = .pad ∨ i = .encrypt → t.errcode = 0 → t.len - t.padcnt = s.len) ∧
    (i = .unpad ∨ i = .decrypt → t.errcode = 0 → t.len + t.padcnt = s.len)

/-- 40_block_transform.md R90, 10_state.md R13: what the working registers hold before a command has no
effect on anything but themselves. -/
def Obligations.WorkingRegistersDoNotMatter : Prop :=
  ∀ (i : Instr) (s t : State) (w : Work), exec i s = .next t →
    ∃ t', exec i { s with work := w } = .next t' ∧ t' = { t with work := t'.work }

/-- 10_state.md R25, 44_pipeline.md R147: bytes of BUF at LEN and above are read by no command but
ENCBLK and DECBLK. -/
def Obligations.BytesBeyondLenAreNotRead : Prop :=
  ∀ (i : Instr) (s t : State) (m : Memory), (∀ n, i ≠ .encblk n) → (∀ n, i ≠ .decblk n) →
    m.cap = s.buf.cap → Config.capOk s.buf.cap = true → (∀ a, a < s.len.toNat → m.read a = s.buf.read a) →
    exec i s = .next t →
    ∃ t', exec i { s with buf := m } = .next t' ∧ t' = { t with buf := t'.buf } ∧
      (∀ a, a < s.len.toNat ∨ a < t.len.toNat → byteAt t' a = byteAt t a)

/-! ## The block transform -/

/-- 40_block_transform.md R80, R89: MIX in numbers: multiplication by 16 and division by 32 as the two
shifts, every sum modulo 2^32. -/
def Obligations.MixInNumbers : Prop :=
  ∀ v sum k : Word, (mix v sum k).toNat =
    ((((v.toNat * 16 % 2 ^ 32) ^^^ (v.toNat / 32)) + v.toNat) % 2 ^ 32) ^^^ ((sum.toNat + k.toNat) % 2 ^ 32)

/-- 40_block_transform.md R81, R82: the 32 rounds, each as the spec writes it, and SUM along them. -/
def Obligations.EncryptionIsThirtyTwoRounds : Prop :=
  ∀ (k : Words4) (v0 v1 : Word) (f : Nat → Word × Word × Word), f 0 = (v0, v1, 0) →
    (∀ r, f (r + 1) = encRoundSpec k (f r)) →
    cryptBlock .encrypt k v0 v1 = ((f 32).1, (f 32).2.1) ∧
    (∀ r, (f (r + 1)).2.2.toNat = (r + 1) * 0x9E3779B9 % 2 ^ 32) ∧ (f 32).2.2 = 0xC6EF3720#32

/-- 40_block_transform.md R83, R84: the 32 rounds of decryption and SUM at both ends. -/
def Obligations.DecryptionIsThirtyTwoRounds : Prop :=
  ∀ (k : Words4) (v0 v1 : Word) (f : Nat → Word × Word × Word), f 0 = (v0, v1, 0xC6EF3720#32) →
    (∀ r, f (r + 1) = decRoundSpec k (f r)) →
    cryptBlock .decrypt k v0 v1 = ((f 32).1, (f 32).2.1) ∧ (f 32).2.2 = 0 ∧
    0x9E3779B9 * 32 = 0x13C6EF3720 ∧ 0x9E3779B9 * 32 % 2 ^ 32 = 0xC6EF3720

/-- 40_block_transform.md R83: the machine's decryption round is the spec's, and `DecRound` undoes
`EncRound` at every `(v0, v1, s)`. -/
def Obligations.DecRoundUndoesEncRound : Prop :=
  ∀ (k : Words4) (w : Work),
    ((decRound k w).v0, (decRound k w).v1, (decRound k w).sum) = decRoundSpec k (w.v0, w.v1, w.sum) ∧
    decRoundSpec k (encRoundSpec k (w.v0, w.v1, w.sum)) = (w.v0, w.v1, w.sum) ∧
    (decRound k (encRound k w)).v0 = w.v0 ∧ (decRound k (encRound k w)).v1 = w.v1 ∧
    (decRound k (encRound k w)).sum = w.sum

/-- 40_block_transform.md R85: the two transforms are inverse to each other, and encryption is a bijection. -/
def Obligations.BlockTransformsAreInverse : Prop :=
  ∀ k : Words4,
    (∀ v0 v1 : Word, cryptBlock .decrypt k (cryptBlock .encrypt k v0 v1).1 (cryptBlock .encrypt k v0 v1).2 = (v0, v1)) ∧
    (∀ v0 v1 : Word, cryptBlock .encrypt k (cryptBlock .decrypt k v0 v1).1 (cryptBlock .decrypt k v0 v1).2 = (v0, v1)) ∧
    Function.Bijective fun v : Word × Word => cryptBlock .encrypt k v.1 v.2

/-- 40_block_transform.md R86: the key words used, round by round: `i0` and `i1` of the 32 encryption
rounds, then `i1` and `i0` of the 32 decryption rounds, which run the same lists backwards. -/
def Obligations.KeyWordSchedule : Prop :=
  Config.DELTA &&& 3 = 1 ∧
  ((List.range 32).map fun r => (keyIndexLow (BitVec.ofNat 32 (r * 0x9E3779B9))).toNat) =
    [0, 1, 2, 3, 0, 1, 2, 3, 0, 1, 2, 3, 0, 1, 2, 3, 0, 1, 2, 3, 0, 1, 2, 3, 0, 1, 2, 3, 0, 1, 2, 3] ∧
  ((List.range 32).map fun r => (keyIndexHigh (BitVec.ofNat 32 ((r + 1) * 0x9E3779B9))).toNat) =
    [3, 2, 1, 0, 0, 3, 2, 1, 0, 0, 3, 2, 1, 1, 0, 3, 2, 1, 1, 0, 3, 2, 1, 1, 0, 3, 2, 2, 1, 0, 3, 2] ∧
  ((List.range 32).map fun r => (keyIndexHigh (Config.SUM_INIT_DEC - BitVec.ofNat 32 (r * 0x9E3779B9))).toNat) =
    [2, 3, 0, 1, 2, 2, 3, 0, 1, 1, 2, 3, 0, 1, 1, 2, 3, 0, 1, 1, 2, 3, 0, 0, 1, 2, 3, 0, 0, 1, 2, 3] ∧
  ((List.range 32).map fun r =>
      (keyIndexLow (Config.SUM_INIT_DEC - BitVec.ofNat 32 ((r + 1) * 0x9E3779B9))).toNat) =
    [3, 2, 1, 0, 3, 2, 1, 0, 3, 2, 1, 0, 3, 2, 1, 0, 3, 2, 1, 0, 3, 2, 1, 0, 3, 2, 1, 0, 3, 2, 1, 0]

/-- 40_block_transform.md R87. -/
def Obligations.EncblkEncryptsOneBlockInPlace : Prop :=
  (∀ (n : Nat) (s : State), n < 2 ^ 24 →
    decode (BitVec.ofNat 32 (n * 256 + 2)) = .command (.encblk n) ∧
    (s.keyvalid = false → exec (.encblk n) s = .next { s with errcode := 5 }) ∧
    (s.keyvalid = true → s.buf.cap < 8 * n + 8 → exec (.encblk n) s = .next { s with errcode := 4 }) ∧
    (s.keyvalid = true → 8 * n + 8 ≤ s.buf.cap →
      ∃ t, exec (.encblk n) s = .next t ∧ t = { s with errcode := 0, buf := t.buf, work := t.work } ∧
        t.buf.cap = s.buf.cap ∧
        ∀ a, byteAt t a =
          if 8 * n ≤ a ∧ a < 8 * n + 8 then
            byteOfBlock (cryptBlock .encrypt s.k (blockOf (byteAt s) n).1 (blockOf (byteAt s) n).2) (a - 8 * n)
          else byteAt s a)) ∧
  cryptBlock .encrypt ⟨0x03020100, 0x07060504, 0x0B0A0908, 0x0F0E0D0C⟩ 0x44434241 0x48474645 =
    (0x7E69E7CA, 0x21E96E00)

/-- 40_block_transform.md R88. -/
def Obligations.DecblkDecryptsOneBlockInPlace : Prop :=
  (∀ (n : Nat) (s : State), n < 2 ^ 24 →
    decode (BitVec.ofNat 32 (n * 256 + 3)) = .command (.decblk n) ∧
    (s.keyvalid = false → exec (.decblk n) s = .next { s with errcode := 5 }) ∧
    (s.keyvalid = true → s.buf.cap < 8 * n + 8 → exec (.decblk n) s = .next { s with errcode := 4 }) ∧
    (s.keyvalid = true → 8 * n + 8 ≤ s.buf.cap →
      ∃ t, exec (.decblk n) s = .next t ∧ t = { s with errcode := 0, buf := t.buf, work := t.work } ∧
        t.buf.cap = s.buf.cap ∧
        ∀ a, byteAt t a =
          if 8 * n ≤ a ∧ a < 8 * n + 8 then
            byteOfBlock (cryptBlock .decrypt s.k (blockOf (byteAt s) n).1 (blockOf (byteAt s) n).2) (a - 8 * n)
          else byteAt s a)) ∧
  (∀ (n : Nat) (s t u : State), exec (.encblk n) s = .next t → t.errcode = 0 → exec (.decblk n) t = .next u →
    u.errcode = 0 ∧ ∀ a, byteAt u a = byteAt s a) ∧
  (∀ (n : Nat) (s t u : State), exec (.decblk n) s = .next t → t.errcode = 0 → exec (.encblk n) t = .next u →
    u.errcode = 0 ∧ ∀ a, byteAt u a = byteAt s a) ∧
  cryptBlock .decrypt ⟨0, 0, 0, 0⟩ 0 0 = (0x2B6E57D5, 0x667C2111)

/-! ## Key material -/

/-- 41_key_material.md R100, R103: which secrets give the same key. -/
def Obligations.DeriveKeyEqualities : Prop :=
  (∀ secret : List Byte, ∀ n : Nat, deriveKey (secret ++ List.replicate n 0) = deriveKey secret) ∧
  (∀ secret : List Byte, deriveKey secret = deriveKey (secret.take 16)) ∧
  (∀ s t : List Byte, deriveKey s = deriveKey t ↔
    (s.take 16).rdropWhile (· == 0) = (t.take 16).rdropWhile (· == 0))

/-- 41_key_material.md R101: byte by byte, the corner cases of SLEN, and `deriveKey` of the secret that
is staged, whatever stale bytes stand above its length. -/
def Obligations.KeyloadLoadsTheMaskedSecret : Prop :=
  ∀ s : State, decode 0x00000001#32 = .command .keyload ∧
    ∃ t, exec .keyload s = .next t ∧ t = { s with k := t.k, keyvalid := true, errcode := 0 } ∧
      (∀ i, i < 16 → secByte t.k i = if i < s.slen.toNat then secByte s.sec i else 0) ∧
      (s.slen = 0 → t.k = ⟨0, 0, 0, 0⟩) ∧ (16 ≤ s.slen.toNat → t.k = s.sec) ∧ statusWord t = 0x100#32 ∧
      ∀ secret : List Byte, secret.length = s.slen.toNat →
        (∀ i, i < 16 → i < secret.length → secByte s.sec i = secret.getD i 0) → t.k = deriveKey secret

/-- 41_key_material.md R102: what KEYCLR leaves; that no step but one that runs KEYLOAD makes a key valid
or writes the zero key; and, of whole runs, that after KEYCLR every cipher command fails with `NoKey`,
after any number of steps with no KEYLOAD among the transactions that follow (the list of transactions
is the model's, log entry 4). -/
def Obligations.KeyclrForgetsTheKey : Prop :=
  (∀ s : State, decode 0x0000000A#32 = .command .keyclr ∧
    exec .keyclr s = .next { s with k := ⟨0, 0, 0, 0⟩, sec := ⟨0, 0, 0, 0⟩, slen := 0, keyvalid := false, errcode := 0 } ∧
    ∀ t u : State, exec .keyclr s = .next t → statusWord t = 0 ∧
      ∀ i : Instr, Instr.needsKey i = true → exec i t = .next u → u.errcode = 5) ∧
  (∀ s t : State, s.keyvalid = false → s.k = ⟨0, 0, 0, 0⟩ → step s = .next t →
    (∀ (w : Word) (rest : List HostEvent), s.script = .regWrite 0 w :: rest → decode w ≠ .command .keyload) →
    t.keyvalid = false ∧ t.k = ⟨0, 0, 0, 0⟩) ∧
  ∀ (s u : State) (rest : List HostEvent) (n : Nat), s.script = .regWrite 0 0x0000000A#32 :: rest →
    (∀ w : Word, HostEvent.regWrite 0 w ∈ rest → decode w ≠ .command .keyload) →
    Host.Core.run Sys2Proof.core (n + 1) s = .next u →
    u.keyvalid = false ∧ u.k = ⟨0, 0, 0, 0⟩ ∧
      ∀ i : Instr, Instr.needsKey i = true → exec i u = .next { u with errcode := 5 }

/-- 30_encoding.md R69: the six transactions of SETKEY load the key derived from the secret, for every
length that SLEN can hold; what a host writes for a longer secret the spec does not say (log entry 8). -/
def Obligations.SetkeyScriptLoadsTheDerivedKey : Prop :=
  ∀ (s : State) (secret : List Byte), secret.length < 2 ^ 32 → s.script = Script.setkey secret →
    ∃ t, Host.Core.run Sys2Proof.core 6 s = .next t ∧ t.script = [] ∧ t.k = deriveKey secret ∧
      t.keyvalid = true ∧ t.errcode = 0 ∧ t.buf = s.buf ∧ t.len = s.len ∧ t.padcnt = s.padcnt ∧
      t.padfull = s.padfull ∧ t.returned = s.returned

/-- 30_encoding.md R69: the transactions of LOAD place the data and its length. -/
def Obligations.LoadScriptPlacesTheData : Prop :=
  ∀ (s : State) (data : List Byte), data.length ≤ s.buf.cap → s.script = Script.load data →
    ∃ t, Host.Core.run Sys2Proof.core (data.length + 1) s = .next t ∧ t.script = [] ∧
      t.len = BitVec.ofNat 32 data.length ∧
      (∀ a, byteAt t a = if a < data.length then data.getD a 0 else byteAt s a) ∧
      t = { s with script := [], len := t.len, buf := t.buf }

/-! ## The padding codec -/

/-- 42_padding_codec.md R110: the count, and its exact range in each mode. -/
def Obligations.ComputePaddingRange : Prop :=
  ∀ (len : Nat),
    (len + computePadding len false) % 8 = 0 ∧ (len + computePadding len true) % 8 = 0 ∧
    computePadding len false ≤ 7 ∧ 1 ≤ computePadding len true ∧ computePadding len true ≤ 8 ∧
    (∀ padfull : Bool, computePadding len padfull =
      if 8 - len % 8 = 8 ∧ padfull = false then 0 else 8 - len % 8)

/-- 42_padding_codec.md R111, R112: PAD. -/
def Obligations.PadAppendsThePadding : Prop :=
  ∀ s : State, decode 0x00000004#32 = .command .pad ∧
    (s.buf.cap < s.len.toNat ∨ s.buf.cap < s.len.toNat + computePadding s.len.toNat s.padfull →
      exec .pad s = .next { s with errcode := 4 }) ∧
    (s.len.toNat + computePadding s.len.toNat s.padfull ≤ s.buf.cap →
      ∃ t, exec .pad s = .next t ∧
        t = { s with errcode := 0, buf := t.buf, len := t.len, padcnt := t.padcnt } ∧
        t.buf.cap = s.buf.cap ∧
        t.len = s.len + BitVec.ofNat 32 (computePadding s.len.toNat s.padfull) ∧
        t.padcnt.toNat = computePadding s.len.toNat s.padfull ∧
        ∀ a, byteAt t a =
          if s.len.toNat ≤ a ∧ a < s.len.toNat + computePadding s.len.toNat s.padfull then
            BitVec.ofNat 8 (computePadding s.len.toNat s.padfull)
          else byteAt s a) ∧
    (Config.capOk s.buf.cap = true → s.len.toNat ≤ s.buf.cap →
      (s.buf.cap < s.len.toNat + computePadding s.len.toNat s.padfull ↔
        s.padfull = true ∧ s.len.toNat = s.buf.cap))

/-- 42_padding_codec.md R113: what is valid padding, and that every other buffer is `InvalidPadding`. -/
def Obligations.StripPaddingAcceptsExactlyUniformTails : Prop :=
  ∀ (b : Nat → Byte) (len : Nat),
    (∀ p, stripPadding b len = some p ↔
      len ≠ 0 ∧ 1 ≤ p ∧ p ≤ 8 ∧ p ≤ len ∧ ∀ i, 1 ≤ i → i ≤ p → (b (len - i)).toNat = p) ∧
    (stripPadding b len = none ↔
      len = 0 ∨ b (len - 1) = 0 ∨ 8 < (b (len - 1)).toNat ∨ len < (b (len - 1)).toNat ∨
        ∃ i, 1 ≤ i ∧ i ≤ (b (len - 1)).toNat ∧ b (len - i) ≠ b (len - 1))

/-- 42_padding_codec.md R114: UNPAD. -/
def Obligations.UnpadValidatesAndRemoves : Prop :=
  ∀ s : State, decode 0x00000005#32 = .command .unpad ∧
    (s.buf.cap < s.len.toNat → exec .unpad s = .next { s with errcode := 4 }) ∧
    (s.len.toNat ≤ s.buf.cap → stripPadding (byteAt s) s.len.toNat = none →
      exec .unpad s = .next { s with errcode := 2 }) ∧
    (∀ p, s.len.toNat ≤ s.buf.cap → stripPadding (byteAt s) s.len.toNat = some p →
      ∃ t, exec .unpad s = .next t ∧ t = { s with errcode := 0, len := t.len, padcnt := t.padcnt } ∧
        t.len.toNat = s.len.toNat - p ∧ t.padcnt.toNat = p ∧ ∀ a, byteAt t a = byteAt s a)

/-- 42_padding_codec.md R115: PAD then UNPAD. -/
def Obligations.PadThenUnpadRestoresTheBuffer : Prop :=
  ∀ s t u : State, Config.capOk s.buf.cap = true →
    1 ≤ computePadding s.len.toNat s.padfull →
    s.len.toNat + computePadding s.len.toNat s.padfull ≤ s.buf.cap →
    exec .pad s = .next t → exec .unpad t = .next u →
    u.errcode = 0 ∧ u.len = s.len ∧ u.padcnt.toNat = computePadding s.len.toNat s.padfull ∧
      ∀ a, a < s.len.toNat → byteAt u a = byteAt s a

/-! ## The block stream -/

/-- 43_block_stream.md R130, R131: ENCBUF. -/
def Obligations.EncbufEncryptsEveryBlock : Prop :=
  ∀ s : State, decode 0x00000006#32 = .command .encbuf ∧
    (s.keyvalid = false → exec .encbuf s = .next { s with errcode := 5 }) ∧
    (s.keyvalid = true → s.buf.cap < s.len.toNat → exec .encbuf s = .next { s with errcode := 4 }) ∧
    (s.keyvalid = true → s.len.toNat ≤ s.buf.cap → s.len.toNat % 8 ≠ 0 →
      exec .encbuf s = .next { s with errcode := 6 }) ∧
    (s.keyvalid = true → s.len.toNat ≤ s.buf.cap → s.len.toNat % 8 = 0 →
      ∃ t, exec .encbuf s = .next t ∧ t = { s with errcode := 0, buf := t.buf, work := t.work } ∧
        t.buf.cap = s.buf.cap ∧
        ∀ a, byteAt t a = if a < s.len.toNat then streamByte .encrypt s.k (byteAt s) a else byteAt s a)

/-- 43_block_stream.md R130, R132: DECBUF. -/
def Obligations.DecbufDecryptsEveryBlock : Prop :=
  ∀ s : State, decode 0x00000007#32 = .command .decbuf ∧
    (s.keyvalid = false → exec .decbuf s = .next { s with errcode := 5 }) ∧
    (s.keyvalid = true → s.buf.cap < s.len.toNat → exec .decbuf s = .next { s with errcode := 4 }) ∧
    (s.keyvalid = true → s.len.toNat ≤ s.buf.cap → s.len.toNat % 8 ≠ 0 →
      exec .decbuf s = .next { s with errcode := 6 }) ∧
    (s.keyvalid = true → s.len.toNat ≤ s.buf.cap → s.len.toNat % 8 = 0 →
      ∃ t, exec .decbuf s = .next t ∧ t = { s with errcode := 0, buf := t.buf, work := t.work } ∧
        t.buf.cap = s.buf.cap ∧
        ∀ a, byteAt t a = if a < s.len.toNat then streamByte .decrypt s.k (byteAt s) a else byteAt s a)

/-- 43_block_stream.md R133: equal blocks stay equal, and a change of one block changes that block only. -/
def Obligations.StreamBlocksAreIndependent : Prop :=
  (∀ (s t : State) (i j : Nat), exec .encbuf s = .next t → t.errcode = 0 →
    8 * i + 8 ≤ s.len.toNat → 8 * j + 8 ≤ s.len.toNat →
    (∀ x, x < 8 → byteAt s (8 * i + x) = byteAt s (8 * j + x)) →
    ∀ x, x < 8 → byteAt t (8 * i + x) = byteAt t (8 * j + x)) ∧
  (∀ (s t s' t' : State) (j : Nat), s'.k = s.k → s'.len = s.len →
    exec .encbuf s = .next t → t.errcode = 0 → exec .encbuf s' = .next t' → t'.errcode = 0 →
    (∀ a, a / 8 ≠ j → byteAt s' a = byteAt s a) →
    (∀ a, a / 8 ≠ j → byteAt t' a = byteAt t a) ∧
    (8 * j + 8 ≤ s.len.toNat → (∃ x, x < 8 ∧ byteAt s' (8 * j + x) ≠ byteAt s (8 * j + x)) →
      ∃ x, x < 8 ∧ byteAt t' (8 * j + x) ≠ byteAt t (8 * j + x)))

/-- 43_block_stream.md R134: the blocks taken in any order give the same buffer. -/
def Obligations.BlockOrderIsNotObservable : Prop :=
  ∀ (d : Direction) (n : Nat) (order : List Nat) (s : State), order.Perm (List.range n) →
    ∀ a, byteAt (order.foldl (fun t j => cipherBlock d (8 * j) t) s) a = byteAt (transformBlocks d n s) a

/-- 43_block_stream.md R135: the two directions undo each other. -/
def Obligations.StreamDirectionsAreInverse : Prop :=
  ∀ s t u : State, s.keyvalid = true → s.len.toNat ≤ s.buf.cap → s.len.toNat % 8 = 0 →
    (exec .encbuf s = .next t → exec .decbuf t = .next u → u.errcode = 0 ∧ ∀ a, byteAt u a = byteAt s a) ∧
    (exec .decbuf s = .next t → exec .encbuf t = .next u → u.errcode = 0 ∧ ∀ a, byteAt u a = byteAt s a)

/-- 70_reset_and_hazards.md R189, 40_block_transform.md R90: a chunk of a buffer, encrypted (decrypted) on
its own at the start of BUF, gives the bytes it gives inside the whole buffer. -/
def Obligations.ChunkedStreamEqualsTheWhole : Prop :=
  ∀ (s s' u u' : State) (o : Nat), u.k = s.k → o + u.len.toNat ≤ s.len.toNat → o % 8 = 0 →
    (∀ a, a < u.len.toNat → byteAt u a = byteAt s (o + a)) →
    (exec .encbuf s = .next s' → s'.errcode = 0 → exec .encbuf u = .next u' → u'.errcode = 0 →
      ∀ a, a < u.len.toNat → byteAt u' a = byteAt s' (o + a)) ∧
    (exec .decbuf s = .next s' → s'.errcode = 0 → exec .decbuf u = .next u' → u'.errcode = 0 →
      ∀ a, a < u.len.toNat → byteAt u' a = byteAt s' (o + a))

/-! ## The pipelines -/

/-- 44_pipeline.md R140: ENCRYPT. -/
def Obligations.EncryptPadsAndEncrypts : Prop :=
  ∀ s : State, Config.capOk s.buf.cap = true → decode 0x00000008#32 = .command .encrypt ∧
    (s.keyvalid = false → exec .encrypt s = .next { s with errcode := 5 }) ∧
    (s.keyvalid = true →
      s.buf.cap < s.len.toNat ∨ s.buf.cap < s.len.toNat + computePadding s.len.toNat s.padfull →
      exec .encrypt s = .next { s with errcode := 4 }) ∧
    (s.keyvalid = true → s.len.toNat + computePadding s.len.toNat s.padfull ≤ s.buf.cap →
      ∃ t, exec .encrypt s = .next t ∧
        t = { s with errcode := 0, buf := t.buf, work := t.work, len := t.len, padcnt := t.padcnt } ∧
        t.buf.cap = s.buf.cap ∧
        t.len.toNat = s.len.toNat + computePadding s.len.toNat s.padfull ∧
        t.padcnt.toNat = computePadding s.len.toNat s.padfull ∧
        ∀ a, byteAt t a =
          if a < s.len.toNat + computePadding s.len.toNat s.padfull then
            streamByte .encrypt s.k (paddedByte (byteAt s) s.len.toNat (computePadding s.len.toNat s.padfull)) a
          else byteAt s a)

/-- 44_pipeline.md R141: DECRYPT. -/
def Obligations.DecryptChecksDecryptsAndStrips : Prop :=
  ∀ s : State, decode 0x00000009#32 = .command .decrypt ∧
    (s.keyvalid = false → exec .decrypt s = .next { s with errcode := 5 }) ∧
    (s.keyvalid = true → s.buf.cap < s.len.toNat → exec .decrypt s = .next { s with errcode := 4 }) ∧
    (s.keyvalid = true → s.len.toNat ≤ s.buf.cap → s.len.toNat = 0 ∨ s.len.toNat % 8 ≠ 0 →
      exec .decrypt s = .next { s with errcode := 1 }) ∧
    (s.keyvalid = true → s.len.toNat ≤ s.buf.cap → s.len.toNat ≠ 0 → s.len.toNat % 8 = 0 →
      ∃ t, exec .decrypt s = .next t ∧
        t = { s with errcode := t.errcode, buf := t.buf, work := t.work, len := t.len, padcnt := t.padcnt } ∧
        t.buf.cap = s.buf.cap ∧
        (∀ a, byteAt t a = if a < s.len.toNat then streamByte .decrypt s.k (byteAt s) a else byteAt s a) ∧
        (stripPadding (streamByte .decrypt s.k (byteAt s)) s.len.toNat = none →
          t.errcode = 2 ∧ t.len = s.len ∧ t.padcnt = s.padcnt) ∧
        ∀ p, stripPadding (streamByte .decrypt s.k (byteAt s)) s.len.toNat = some p →
          t.errcode = 0 ∧ t.len.toNat = s.len.toNat - p ∧ t.padcnt.toNat = p)

/-- 44_pipeline.md R142: NOP, and the STATUS it leaves. -/
def Obligations.NopReportsSuccess : Prop :=
  ∀ s : State, decode 0x00000000#32 = .command .nop ∧
    ∃ t, exec .nop s = .next t ∧ t = { s with errcode := 0 } ∧
      (s.keyvalid = true → statusWord t = 0x100#32) ∧ (s.keyvalid = false → statusWord t = 0)

/-- 44_pipeline.md R143: ENCRYPT against PAD then ENCBUF, DECRYPT against DECBUF then UNPAD. -/
def Obligations.PipelinesComposeTheirParts : Prop :=
  ∀ s : State, Config.capOk s.buf.cap = true →
    (s.keyvalid = true → ∀ u, exec .pad s = .next u →
      (u.errcode = 0 → exec .encrypt s = exec .encbuf u) ∧ (u.errcode ≠ 0 → exec .encrypt s = exec .pad s)) ∧
    (s.keyvalid = false → exec .encrypt s = .next { s with errcode := 5 } ∧
      ∀ u, exec .pad s = .next u → exec .encbuf u = .next { u with errcode := 5 }) ∧
    (s.keyvalid = true → s.len.toNat ≤ s.buf.cap → s.len.toNat ≠ 0 → s.len.toNat % 8 = 0 →
      ∀ u, exec .decbuf s = .next u → exec .decrypt s = exec .unpad u) ∧
    (s.keyvalid = true → s.len.toNat = 0 → exec .decrypt s = .next { s with errcode := 1 } ∧
      ∀ u v, exec .decbuf s = .next u → exec .unpad u = .next v → u.errcode = 0 ∧ v.errcode = 2) ∧
    (s.keyvalid = true → s.len.toNat ≤ s.buf.cap → s.len.toNat % 8 ≠ 0 →
      exec .decrypt s = .next { s with errcode := 1 } ∧ exec .decbuf s = .next { s with errcode := 6 })

/-- 44_pipeline.md R144: ENCRYPT then DECRYPT under one key restores the plaintext whenever at least one
pad byte was added, whatever CTRL.PADFULL is at the DECRYPT; where none was added, it never does. -/
def Obligations.EncryptThenDecryptRoundTrip : Prop :=
  ∀ (s t u : State) (padfull : Bool), Config.capOk s.buf.cap = true → s.keyvalid = true →
    s.len.toNat + computePadding s.len.toNat s.padfull ≤ s.buf.cap →
    exec .encrypt s = .next t → exec .decrypt { t with padfull := padfull } = .next u →
    t.errcode = 0 ∧
    (s.padfull = true ∨ s.len.toNat % 8 ≠ 0 →
      u.errcode = 0 ∧ u.len = s.len ∧
        u.padcnt.toNat = computePadding s.len.toNat s.padfull ∧ ∀ a, a < s.len.toNat → byteAt u a = byteAt s a) ∧
    (s.padfull = false → s.len.toNat % 8 = 0 → u.errcode ≠ 0 ∨ u.len ≠ s.len)

/-- 44_pipeline.md R145: the length after a successful ENCRYPT, and that the ciphertext is the encrypted
blocks of the padded plaintext and nothing else. -/
def Obligations.CiphertextLength : Prop :=
  ∀ s t : State, Config.capOk s.buf.cap = true → exec .encrypt s = .next t → t.errcode = 0 →
    (s.padfull = false → t.len.toNat = (s.len.toNat + 7) / 8 * 8 ∧
      (s.len.toNat % 8 = 0 → t.len = s.len)) ∧
    (s.padfull = true → t.len.toNat = s.len.toNat / 8 * 8 + 8 ∧
      (s.len.toNat % 8 = 0 → t.len.toNat = s.len.toNat + 8)) ∧
    ∀ a, a < t.len.toNat → byteAt t a =
      streamByte .encrypt s.k (paddedByte (byteAt s) s.len.toNat (computePadding s.len.toNat s.padfull)) a

/-- 70_reset_and_hazards.md R184: the padding boundary hazard in the reference mode, case by case; the
plaintext never comes back. -/
def Obligations.PaddingBoundaryHazard : Prop :=
  ∀ s t u : State, Config.capOk s.buf.cap = true → s.keyvalid = true → s.padfull = false →
    s.len.toNat ≤ s.buf.cap → s.len.toNat % 8 = 0 →
    exec .encrypt s = .next t → exec .decrypt t = .next u →
    t.errcode = 0 ∧ t.len = s.len ∧ t.padcnt = 0 ∧ (∀ a, byteAt u a = byteAt s a) ∧
    (s.len.toNat = 0 → u.errcode = 1) ∧
    (s.len.toNat ≠ 0 → byteAt s (s.len.toNat - 1) = 0 ∨ 8 < (byteAt s (s.len.toNat - 1)).toNat →
      u.errcode = 2) ∧
    (s.len.toNat ≠ 0 → 1 ≤ (byteAt s (s.len.toNat - 1)).toNat → (byteAt s (s.len.toNat - 1)).toNat ≤ 8 →
      (∃ i, 1 ≤ i ∧ i ≤ (byteAt s (s.len.toNat - 1)).toNat ∧
        byteAt s (s.len.toNat - i) ≠ byteAt s (s.len.toNat - 1)) → u.errcode = 2) ∧
    (s.len.toNat ≠ 0 → 1 ≤ (byteAt s (s.len.toNat - 1)).toNat → (byteAt s (s.len.toNat - 1)).toNat ≤ 8 →
      (∀ i, 1 ≤ i → i ≤ (byteAt s (s.len.toNat - 1)).toNat →
        byteAt s (s.len.toNat - i) = byteAt s (s.len.toNat - 1)) →
      u.errcode = 0 ∧ u.len.toNat = s.len.toNat - (byteAt s (s.len.toNat - 1)).toNat) ∧
    (u.errcode ≠ 0 ∨ u.len ≠ s.len)

/-- 60_exceptions.md R166: a wrong key can be accepted with a wrong plaintext. -/
def Obligations.WrongKeyCanBeAccepted : Prop :=
  ∃ (s t u : State) (k' : Words4), s.keyvalid = true ∧ k' ≠ s.k ∧ exec .encrypt s = .next t ∧ t.errcode = 0 ∧
    exec .decrypt { t with k := k' } = .next u ∧ u.errcode = 0 ∧ u.len ≠ s.len ∧ byteAt u 0 ≠ byteAt s 0
end

