-- ==== Sys2Proof/Laws/State.lean ====
section
/-!
SUPPORT. What each update of the state does to each field: one lemma per field per update, so that
no later proof unfolds a record update. Each holds by unfolding and is written `(rfl)`, so that simp
rewrites with it as with any equation and leaves the kernel no 32-round term to unfold.
-/

namespace Sys2Proof.Machine

@[simp] theorem setErrcode_k (c : BitVec 8) (s : State) : (setErrcode c s).k = s.k := (rfl)
@[simp] theorem setErrcode_keyvalid (c : BitVec 8) (s : State) : (setErrcode c s).keyvalid = s.keyvalid := (rfl)
@[simp] theorem setErrcode_errcode (c : BitVec 8) (s : State) : (setErrcode c s).errcode = c := (rfl)
@[simp] theorem setErrcode_padfull (c : BitVec 8) (s : State) : (setErrcode c s).padfull = s.padfull := (rfl)
@[simp] theorem setErrcode_len (c : BitVec 8) (s : State) : (setErrcode c s).len = s.len := (rfl)
@[simp] theorem setErrcode_padcnt (c : BitVec 8) (s : State) : (setErrcode c s).padcnt = s.padcnt := (rfl)
@[simp] theorem setErrcode_slen (c : BitVec 8) (s : State) : (setErrcode c s).slen = s.slen := (rfl)
@[simp] theorem setErrcode_sec (c : BitVec 8) (s : State) : (setErrcode c s).sec = s.sec := (rfl)
@[simp] theorem setErrcode_buf (c : BitVec 8) (s : State) : (setErrcode c s).buf = s.buf := (rfl)
@[simp] theorem setErrcode_work (c : BitVec 8) (s : State) : (setErrcode c s).work = s.work := (rfl)
@[simp] theorem setErrcode_draws (c : BitVec 8) (s : State) : (setErrcode c s).draws = s.draws := (rfl)
@[simp] theorem setErrcode_script (c : BitVec 8) (s : State) : (setErrcode c s).script = s.script := (rfl)
@[simp] theorem setErrcode_returned (c : BitVec 8) (s : State) : (setErrcode c s).returned = s.returned := (rfl)

@[simp] theorem setBuf_k (m : Memory) (s : State) : (setBuf m s).k = s.k := (rfl)
@[simp] theorem setBuf_keyvalid (m : Memory) (s : State) : (setBuf m s).keyvalid = s.keyvalid := (rfl)
@[simp] theorem setBuf_errcode (m : Memory) (s : State) : (setBuf m s).errcode = s.errcode := (rfl)
@[simp] theorem setBuf_padfull (m : Memory) (s : State) : (setBuf m s).padfull = s.padfull := (rfl)
@[simp] theorem setBuf_len (m : Memory) (s : State) : (setBuf m s).len = s.len := (rfl)
@[simp] theorem setBuf_padcnt (m : Memory) (s : State) : (setBuf m s).padcnt = s.padcnt := (rfl)
@[simp] theorem setBuf_slen (m : Memory) (s : State) : (setBuf m s).slen = s.slen := (rfl)
@[simp] theorem setBuf_sec (m : Memory) (s : State) : (setBuf m s).sec = s.sec := (rfl)
@[simp] theorem setBuf_buf (m : Memory) (s : State) : (setBuf m s).buf = m := (rfl)
@[simp] theorem setBuf_work (m : Memory) (s : State) : (setBuf m s).work = s.work := (rfl)
@[simp] theorem setBuf_draws (m : Memory) (s : State) : (setBuf m s).draws = s.draws := (rfl)
@[simp] theorem setBuf_script (m : Memory) (s : State) : (setBuf m s).script = s.script := (rfl)
@[simp] theorem setBuf_returned (m : Memory) (s : State) : (setBuf m s).returned = s.returned := (rfl)

@[simp] theorem setWork_k (w : Work) (s : State) : (setWork w s).k = s.k := (rfl)
@[simp] theorem setWork_keyvalid (w : Work) (s : State) : (setWork w s).keyvalid = s.keyvalid := (rfl)
@[simp] theorem setWork_errcode (w : Work) (s : State) : (setWork w s).errcode = s.errcode := (rfl)
@[simp] theorem setWork_padfull (w : Work) (s : State) : (setWork w s).padfull = s.padfull := (rfl)
@[simp] theorem setWork_len (w : Work) (s : State) : (setWork w s).len = s.len := (rfl)
@[simp] theorem setWork_padcnt (w : Work) (s : State) : (setWork w s).padcnt = s.padcnt := (rfl)
@[simp] theorem setWork_slen (w : Work) (s : State) : (setWork w s).slen = s.slen := (rfl)
@[simp] theorem setWork_sec (w : Work) (s : State) : (setWork w s).sec = s.sec := (rfl)
@[simp] theorem setWork_buf (w : Work) (s : State) : (setWork w s).buf = s.buf := (rfl)
@[simp] theorem setWork_work (w : Work) (s : State) : (setWork w s).work = w := (rfl)
@[simp] theorem setWork_draws (w : Work) (s : State) : (setWork w s).draws = s.draws := (rfl)
@[simp] theorem setWork_script (w : Work) (s : State) : (setWork w s).script = s.script := (rfl)
@[simp] theorem setWork_returned (w : Work) (s : State) : (setWork w s).returned = s.returned := (rfl)

@[simp] theorem setLen_k (v : Word) (s : State) : (setLen v s).k = s.k := (rfl)
@[simp] theorem setLen_keyvalid (v : Word) (s : State) : (setLen v s).keyvalid = s.keyvalid := (rfl)
@[simp] theorem setLen_errcode (v : Word) (s : State) : (setLen v s).errcode = s.errcode := (rfl)
@[simp] theorem setLen_padfull (v : Word) (s : State) : (setLen v s).padfull = s.padfull := (rfl)
@[simp] theorem setLen_len (v : Word) (s : State) : (setLen v s).len = v := (rfl)
@[simp] theorem setLen_padcnt (v : Word) (s : State) : (setLen v s).padcnt = s.padcnt := (rfl)
@[simp] theorem setLen_slen (v : Word) (s : State) : (setLen v s).slen = s.slen := (rfl)
@[simp] theorem setLen_sec (v : Word) (s : State) : (setLen v s).sec = s.sec := (rfl)
@[simp] theorem setLen_buf (v : Word) (s : State) : (setLen v s).buf = s.buf := (rfl)
@[simp] theorem setLen_work (v : Word) (s : State) : (setLen v s).work = s.work := (rfl)
@[simp] theorem setLen_draws (v : Word) (s : State) : (setLen v s).draws = s.draws := (rfl)
@[simp] theorem setLen_script (v : Word) (s : State) : (setLen v s).script = s.script := (rfl)
@[simp] theorem setLen_returned (v : Word) (s : State) : (setLen v s).returned = s.returned := (rfl)

@[simp] theorem setPadcnt_k (v : Word) (s : State) : (setPadcnt v s).k = s.k := (rfl)
@[simp] theorem setPadcnt_keyvalid (v : Word) (s : State) : (setPadcnt v s).keyvalid = s.keyvalid := (rfl)
@[simp] theorem setPadcnt_errcode (v : Word) (s : State) : (setPadcnt v s).errcode = s.errcode := (rfl)
@[simp] theorem setPadcnt_padfull (v : Word) (s : State) : (setPadcnt v s).padfull = s.padfull := (rfl)
@[simp] theorem setPadcnt_len (v : Word) (s : State) : (setPadcnt v s).len = s.len := (rfl)
@[simp] theorem setPadcnt_padcnt (v : Word) (s : State) : (setPadcnt v s).padcnt = v := (rfl)
@[simp] theorem setPadcnt_slen (v : Word) (s : State) : (setPadcnt v s).slen = s.slen := (rfl)
@[simp] theorem setPadcnt_sec (v : Word) (s : State) : (setPadcnt v s).sec = s.sec := (rfl)
@[simp] theorem setPadcnt_buf (v : Word) (s : State) : (setPadcnt v s).buf = s.buf := (rfl)
@[simp] theorem setPadcnt_work (v : Word) (s : State) : (setPadcnt v s).work = s.work := (rfl)
@[simp] theorem setPadcnt_draws (v : Word) (s : State) : (setPadcnt v s).draws = s.draws := (rfl)
@[simp] theorem setPadcnt_script (v : Word) (s : State) : (setPadcnt v s).script = s.script := (rfl)
@[simp] theorem setPadcnt_returned (v : Word) (s : State) : (setPadcnt v s).returned = s.returned := (rfl)

@[simp] theorem reply_k (r : HostReply) (s : State) : (reply r s).k = s.k := (rfl)
@[simp] theorem reply_keyvalid (r : HostReply) (s : State) : (reply r s).keyvalid = s.keyvalid := (rfl)
@[simp] theorem reply_errcode (r : HostReply) (s : State) : (reply r s).errcode = s.errcode := (rfl)
@[simp] theorem reply_padfull (r : HostReply) (s : State) : (reply r s).padfull = s.padfull := (rfl)
@[simp] theorem reply_len (r : HostReply) (s : State) : (reply r s).len = s.len := (rfl)
@[simp] theorem reply_padcnt (r : HostReply) (s : State) : (reply r s).padcnt = s.padcnt := (rfl)
@[simp] theorem reply_slen (r : HostReply) (s : State) : (reply r s).slen = s.slen := (rfl)
@[simp] theorem reply_sec (r : HostReply) (s : State) : (reply r s).sec = s.sec := (rfl)
@[simp] theorem reply_buf (r : HostReply) (s : State) : (reply r s).buf = s.buf := (rfl)
@[simp] theorem reply_work (r : HostReply) (s : State) : (reply r s).work = s.work := (rfl)
@[simp] theorem reply_draws (r : HostReply) (s : State) : (reply r s).draws = s.draws := (rfl)
@[simp] theorem reply_script (r : HostReply) (s : State) : (reply r s).script = s.script := (rfl)
@[simp] theorem reply_returned (r : HostReply) (s : State) : (reply r s).returned = s.returned ++ [r] := (rfl)

@[simp] theorem forgetWork_k (s : State) : (forgetWork s).k = s.k := (rfl)
@[simp] theorem forgetWork_keyvalid (s : State) : (forgetWork s).keyvalid = s.keyvalid := (rfl)
@[simp] theorem forgetWork_errcode (s : State) : (forgetWork s).errcode = s.errcode := (rfl)
@[simp] theorem forgetWork_padfull (s : State) : (forgetWork s).padfull = s.padfull := (rfl)
@[simp] theorem forgetWork_len (s : State) : (forgetWork s).len = s.len := (rfl)
@[simp] theorem forgetWork_padcnt (s : State) : (forgetWork s).padcnt = s.padcnt := (rfl)
@[simp] theorem forgetWork_slen (s : State) : (forgetWork s).slen = s.slen := (rfl)
@[simp] theorem forgetWork_sec (s : State) : (forgetWork s).sec = s.sec := (rfl)
@[simp] theorem forgetWork_buf (s : State) : (forgetWork s).buf = s.buf := (rfl)
@[simp] theorem forgetWork_work (s : State) : (forgetWork s).work = freeWork s.draws := (rfl)
@[simp] theorem forgetWork_draws (s : State) : (forgetWork s).draws = s.draws + 1 := (rfl)
@[simp] theorem forgetWork_script (s : State) : (forgetWork s).script = s.script := (rfl)
@[simp] theorem forgetWork_returned (s : State) : (forgetWork s).returned = s.returned := (rfl)

end Sys2Proof.Machine
end

