-- ==== Sys2Proof/Laws/Memory.lean ====
section
/-!
SUPPORT. The laws of the buffer memory: a read after a write, the canonical form and its keeping by
every memory operation, and that the form is canonical (equal contents are equal lists); and the two
byte and word conversions as inverses (20_memory.md R42).
-/

namespace Sys2Proof.Machine

/-! ## The capacity -/

theorem capOk_iff (cap : Nat) : Config.capOk cap = true ↔ cap % 8 = 0 ∧ 16 ≤ cap ∧ cap ≤ 2 ^ 27 := by
  rw [Config.capOk, decide_eq_true_iff, Config.BUFCAP_MAX]

/-- Every choice gives a capacity the spec allows (00_scope.md R6). -/
theorem capOk_BUFCAP : Config.capOk Config.BUFCAP = true := by
  have h : Config.bufcapChoice % (2 ^ 24 - 1) < 2 ^ 24 - 1 := Nat.mod_lt _ (by decide)
  rw [capOk_iff, Config.BUFCAP]
  omega

/-- Every capacity the spec allows is the one of some choice (00_scope.md R6). -/
theorem capOk_choice {cap : Nat} (h : Config.capOk cap = true) :
    ∃ c, cap = 8 * (c % (2 ^ 24 - 1)) + 16 := by
  rw [capOk_iff] at h
  exact ⟨(cap - 16) / 8, by omega⟩

/-! ## The cell list -/

@[simp] theorem cellGet_nil (a : Nat) : cellGet [] a = none := (rfl)

theorem cellGet_cons (c : Host.Cell) (m : List Host.Cell) (a : Nat) :
    cellGet (c :: m) a = if a = c.1 then some c.2 else cellGet m a := (rfl)

/-- A read after a write, at the same address and at every other one. -/
theorem cellGet_cellSet (m : List Host.Cell) (a : Nat) (v : Byte) (x : Nat) :
    cellGet (cellSet m a v) x = if x = a then some v else cellGet m x := by
  induction m with
  | nil => rfl
  | cons c m ih =>
    simp only [cellSet]
    split
    · rfl
    · split
      · next h => subst h; by_cases hx : x = c.1 <;> simp [cellGet_cons, hx]
      · next h =>
        by_cases hx : x = c.1
        · simp [cellGet_cons, hx, Ne.symm h]
        · simp [cellGet_cons, hx, ih]

/-- The addresses listed after a write: the old ones and the written one. -/
theorem mem_cellSet {m : List Host.Cell} {a : Nat} {v : Byte} {c : Host.Cell} (h : c ∈ cellSet m a v) :
    c = (a, v) ∨ c ∈ m := by
  induction m with
  | nil => simpa [cellSet] using h
  | cons d m ih =>
    simp only [cellSet] at h
    split at h
    · simpa using h
    · split at h
      · rcases List.mem_cons.1 h with h | h
        · exact .inl h
        · exact .inr (List.mem_cons_of_mem _ h)
      · rcases List.mem_cons.1 h with h | h
        · exact .inr (h ▸ List.mem_cons_self)
        · exact (ih h).imp id (List.mem_cons_of_mem _)

/-- A write keeps the addresses strictly rising. -/
theorem cellSet_rising {m : List Host.Cell} (h : m.Pairwise fun c d => c.1 < d.1) (a : Nat) (v : Byte) :
    (cellSet m a v).Pairwise fun c d => c.1 < d.1 := by
  induction m with
  | nil => simp [cellSet]
  | cons c m ih =>
    obtain ⟨hc, hm⟩ := List.pairwise_cons.1 h
    simp only [cellSet]
    split
    · next ha =>
      refine List.pairwise_cons.2 ⟨fun d hd => ?_, h⟩
      rcases List.mem_cons.1 hd with rfl | hd
      · exact ha
      · exact lt_trans ha (hc d hd)
    · split
      · next ha => exact List.pairwise_cons.2 ⟨fun d hd => by simpa [ha] using hc d hd, hm⟩
      · next h1 h2 =>
        refine List.pairwise_cons.2 ⟨fun d hd => ?_, ih hm⟩
        rcases mem_cellSet hd with rfl | hd
        · show c.1 < a
          omega
        · exact hc d hd

theorem cellGet_eq_none_of_lt {m : List Host.Cell} {a : Nat} (h : ∀ c ∈ m, a < c.1) : cellGet m a = none := by
  induction m with
  | nil => rfl
  | cons c m ih =>
    have hc := h c List.mem_cons_self
    rw [cellGet_cons, if_neg (by omega), ih fun d hd => h d (List.mem_cons_of_mem _ hd)]

/-- The form is canonical: two rising lists that list the same bytes are the same list. -/
theorem cells_ext {m n : List Host.Cell} (hm : m.Pairwise fun c d => c.1 < d.1)
    (hn : n.Pairwise fun c d => c.1 < d.1) (h : ∀ a, cellGet m a = cellGet n a) : m = n := by
  induction m generalizing n with
  | nil =>
    cases n with
    | nil => rfl
    | cons d n => have := h d.1; simp [cellGet_cons] at this
  | cons c m ih =>
    cases n with
    | nil => have := h c.1; simp [cellGet_cons] at this
    | cons d n =>
      obtain ⟨hc, hm'⟩ := List.pairwise_cons.1 hm
      obtain ⟨hd, hn'⟩ := List.pairwise_cons.1 hn
      have key : c.1 = d.1 := by
        rcases Nat.lt_trichotomy c.1 d.1 with hlt | heq | hgt
        · have h1 := h c.1
          rw [cellGet_eq_none_of_lt (m := d :: n) fun e he => by
            rcases List.mem_cons.1 he with rfl | he
            · exact hlt
            · exact lt_trans hlt (hd e he)] at h1
          simp [cellGet_cons] at h1
        · exact heq
        · have h1 := h d.1
          rw [cellGet_eq_none_of_lt (m := c :: m) fun e he => by
            rcases List.mem_cons.1 he with rfl | he
            · exact hgt
            · exact lt_trans hgt (hc e he)] at h1
          simp [cellGet_cons] at h1
      have hval : c.2 = d.2 := by
        have h1 := h c.1
        simpa [cellGet_cons, key] using h1
      have hcd : c = d := Prod.ext key hval
      subst hcd
      rw [ih hm' hn' fun a => ?_]
      by_cases ha : a = c.1
      · subst ha
        rw [cellGet_eq_none_of_lt hc, cellGet_eq_none_of_lt hd]
      · have h1 := h a
        rwa [cellGet_cons, cellGet_cons, if_neg ha, if_neg ha] at h1

/-! ## The buffer memory -/

@[simp] theorem write_cap (m : Memory) (a : Nat) (v : Byte) : (m.write a v).cap = m.cap := (rfl)

@[simp] theorem write_draw (m : Memory) (a : Nat) (v : Byte) : (m.write a v).draw = m.draw := (rfl)

@[simp] theorem write_cells (m : Memory) (a : Nat) (v : Byte) :
    (m.write a v).cells = cellSet m.cells a v := (rfl)

/-- A read after a write (10_state.md R25). -/
theorem read_write (m : Memory) (a : Nat) (v : Byte) (x : Nat) :
    (m.write a v).read x = if x = a then v else m.read x := by
  simp only [Memory.read, write_cells, write_draw, cellGet_cellSet]
  split <;> rfl

@[simp] theorem read_write_self (m : Memory) (a : Nat) (v : Byte) : (m.write a v).read a = v := by
  simp [read_write]

theorem read_write_of_ne (m : Memory) {a x : Nat} (v : Byte) (h : x ≠ a) :
    (m.write a v).read x = m.read x := by
  simp [read_write, h]

/-- The canonical form as its three parts. -/
theorem wf_iff (m : Memory) : m.wf = true ↔
    Config.capOk m.cap = true ∧ (m.cells.Pairwise fun c d => c.1 < d.1) ∧ ∀ c ∈ m.cells, c.1 < m.cap := by
  simp [Memory.wf, and_assoc]

/-- A write inside the buffer keeps the canonical form. -/
theorem wf_write {m : Memory} (h : m.wf = true) {a : Nat} (ha : a < m.cap) (v : Byte) :
    (m.write a v).wf = true := by
  obtain ⟨hc, hp, hb⟩ := (wf_iff m).1 h
  refine (wf_iff _).2 ⟨hc, cellSet_rising hp a v, fun c hcm => ?_⟩
  rcases mem_cellSet hcm with rfl | hcm
  · exact ha
  · exact hb c hcm

/-- The emptied buffer of a reset has the canonical form. -/
theorem wf_empty {cap : Nat} (h : Config.capOk cap = true) (draw : Nat) :
    ({ cap := cap, draw := draw, cells := [] } : Memory).wf = true := by
  simp [wf_iff, h]

/-- The reset buffer has the canonical form. -/
theorem wf_reset : State.reset.buf.wf = true := wf_empty capOk_BUFCAP 0

/-! ## Bytes and words -/

/-- A byte of a word, in numbers. -/
theorem toNat_byteOfWord (w : Word) (i : Nat) :
    (byteOfWord w i).toNat = w.toNat / 2 ^ (8 * i) % 256 := by
  simp [byteOfWord, Nat.shiftRight_eq_div_pow]

/-- The word made of four bytes, in numbers: it never wraps. -/
theorem toNat_wordOfBytes (b0 b1 b2 b3 : Byte) : (wordOfBytes b0 b1 b2 b3).toNat =
    b0.toNat + 2 ^ 8 * b1.toNat + 2 ^ 16 * b2.toNat + 2 ^ 24 * b3.toNat := by
  have h0 := b0.isLt; have h1 := b1.isLt; have h2 := b2.isLt; have h3 := b3.isLt
  simp only [wordOfBytes, BitVec.toNat_ofNat]
  omega

/-- Unpacking what was packed: byte 0. -/
@[simp] theorem byteOfWord_zero (b0 b1 b2 b3 : Byte) : byteOfWord (wordOfBytes b0 b1 b2 b3) 0 = b0 := by
  have h0 := b0.isLt; have h1 := b1.isLt; have h2 := b2.isLt; have h3 := b3.isLt
  apply BitVec.eq_of_toNat_eq
  rw [toNat_byteOfWord, toNat_wordOfBytes]
  omega

/-- Unpacking what was packed: byte 1. -/
@[simp] theorem byteOfWord_one (b0 b1 b2 b3 : Byte) : byteOfWord (wordOfBytes b0 b1 b2 b3) 1 = b1 := by
  have h0 := b0.isLt; have h1 := b1.isLt; have h2 := b2.isLt; have h3 := b3.isLt
  apply BitVec.eq_of_toNat_eq
  rw [toNat_byteOfWord, toNat_wordOfBytes]
  omega

/-- Unpacking what was packed: byte 2. -/
@[simp] theorem byteOfWord_two (b0 b1 b2 b3 : Byte) : byteOfWord (wordOfBytes b0 b1 b2 b3) 2 = b2 := by
  have h0 := b0.isLt; have h1 := b1.isLt; have h2 := b2.isLt; have h3 := b3.isLt
  apply BitVec.eq_of_toNat_eq
  rw [toNat_byteOfWord, toNat_wordOfBytes]
  omega

/-- Unpacking what was packed: byte 3. -/
@[simp] theorem byteOfWord_three (b0 b1 b2 b3 : Byte) : byteOfWord (wordOfBytes b0 b1 b2 b3) 3 = b3 := by
  have h0 := b0.isLt; have h1 := b1.isLt; have h2 := b2.isLt; have h3 := b3.isLt
  apply BitVec.eq_of_toNat_eq
  rw [toNat_byteOfWord, toNat_wordOfBytes]
  omega

/-- Packing what was unpacked. -/
@[simp] theorem wordOfBytes_bytes (w : Word) :
    wordOfBytes (byteOfWord w 0) (byteOfWord w 1) (byteOfWord w 2) (byteOfWord w 3) = w := by
  have h := w.isLt
  apply BitVec.eq_of_toNat_eq
  rw [toNat_wordOfBytes, toNat_byteOfWord, toNat_byteOfWord, toNat_byteOfWord, toNat_byteOfWord]
  omega

end Sys2Proof.Machine
end

