-- ==== Sys2Proof/Laws/Ops.lean ====
section
/-!
SUPPORT. What the shared operations do: which fields they leave alone (one lemma per field), and what
every byte of BUF reads as afterwards.
-/

namespace Sys2Proof.Machine

@[simp] theorem storeByte_k (a : Nat) (v : Byte) (s : State) : (storeByte a v s).k = s.k := (rfl)
@[simp] theorem storeByte_keyvalid (a : Nat) (v : Byte) (s : State) : (storeByte a v s).keyvalid = s.keyvalid := (rfl)
@[simp] theorem storeByte_errcode (a : Nat) (v : Byte) (s : State) : (storeByte a v s).errcode = s.errcode := (rfl)
@[simp] theorem storeByte_padfull (a : Nat) (v : Byte) (s : State) : (storeByte a v s).padfull = s.padfull := (rfl)
@[simp] theorem storeByte_len (a : Nat) (v : Byte) (s : State) : (storeByte a v s).len = s.len := (rfl)
@[simp] theorem storeByte_padcnt (a : Nat) (v : Byte) (s : State) : (storeByte a v s).padcnt = s.padcnt := (rfl)
@[simp] theorem storeByte_slen (a : Nat) (v : Byte) (s : State) : (storeByte a v s).slen = s.slen := (rfl)
@[simp] theorem storeByte_sec (a : Nat) (v : Byte) (s : State) : (storeByte a v s).sec = s.sec := (rfl)
@[simp] theorem storeByte_work (a : Nat) (v : Byte) (s : State) : (storeByte a v s).work = s.work := (rfl)
@[simp] theorem storeByte_draws (a : Nat) (v : Byte) (s : State) : (storeByte a v s).draws = s.draws := (rfl)
@[simp] theorem storeByte_script (a : Nat) (v : Byte) (s : State) : (storeByte a v s).script = s.script := (rfl)
@[simp] theorem storeByte_returned (a : Nat) (v : Byte) (s : State) : (storeByte a v s).returned = s.returned := (rfl)
@[simp] theorem storeByte_buf (a : Nat) (v : Byte) (s : State) :
    (storeByte a v s).buf = s.buf.write a v := (rfl)

@[simp] theorem storeWord_k (a : Nat) (w : Word) (s : State) : (storeWord a w s).k = s.k := by
  simp only [storeWord, storeByte_k]
@[simp] theorem storeWord_keyvalid (a : Nat) (w : Word) (s : State) : (storeWord a w s).keyvalid = s.keyvalid := by
  simp only [storeWord, storeByte_keyvalid]
@[simp] theorem storeWord_errcode (a : Nat) (w : Word) (s : State) : (storeWord a w s).errcode = s.errcode := by
  simp only [storeWord, storeByte_errcode]
@[simp] theorem storeWord_padfull (a : Nat) (w : Word) (s : State) : (storeWord a w s).padfull = s.padfull := by
  simp only [storeWord, storeByte_padfull]
@[simp] theorem storeWord_len (a : Nat) (w : Word) (s : State) : (storeWord a w s).len = s.len := by
  simp only [storeWord, storeByte_len]
@[simp] theorem storeWord_padcnt (a : Nat) (w : Word) (s : State) : (storeWord a w s).padcnt = s.padcnt := by
  simp only [storeWord, storeByte_padcnt]
@[simp] theorem storeWord_slen (a : Nat) (w : Word) (s : State) : (storeWord a w s).slen = s.slen := by
  simp only [storeWord, storeByte_slen]
@[simp] theorem storeWord_sec (a : Nat) (w : Word) (s : State) : (storeWord a w s).sec = s.sec := by
  simp only [storeWord, storeByte_sec]
@[simp] theorem storeWord_work (a : Nat) (w : Word) (s : State) : (storeWord a w s).work = s.work := by
  simp only [storeWord, storeByte_work]
@[simp] theorem storeWord_draws (a : Nat) (w : Word) (s : State) : (storeWord a w s).draws = s.draws := by
  simp only [storeWord, storeByte_draws]
@[simp] theorem storeWord_script (a : Nat) (w : Word) (s : State) : (storeWord a w s).script = s.script := by
  simp only [storeWord, storeByte_script]
@[simp] theorem storeWord_returned (a : Nat) (w : Word) (s : State) : (storeWord a w s).returned = s.returned := by
  simp only [storeWord, storeByte_returned]

@[simp] theorem storeFill_k (a : Nat) (v : Byte) (n : Nat) (s : State) : (storeFill a v n s).k = s.k := by
  induction n with
  | zero => rfl
  | succ n ih => simp [storeFill, ih]
@[simp] theorem storeFill_keyvalid (a : Nat) (v : Byte) (n : Nat) (s : State) : (storeFill a v n s).keyvalid = s.keyvalid := by
  induction n with
  | zero => rfl
  | succ n ih => simp [storeFill, ih]
@[simp] theorem storeFill_errcode (a : Nat) (v : Byte) (n : Nat) (s : State) : (storeFill a v n s).errcode = s.errcode := by
  induction n with
  | zero => rfl
  | succ n ih => simp [storeFill, ih]
@[simp] theorem storeFill_padfull (a : Nat) (v : Byte) (n : Nat) (s : State) : (storeFill a v n s).padfull = s.padfull := by
  induction n with
  | zero => rfl
  | succ n ih => simp [storeFill, ih]
@[simp] theorem storeFill_len (a : Nat) (v : Byte) (n : Nat) (s : State) : (storeFill a v n s).len = s.len := by
  induction n with
  | zero => rfl
  | succ n ih => simp [storeFill, ih]
@[simp] theorem storeFill_padcnt (a : Nat) (v : Byte) (n : Nat) (s : State) : (storeFill a v n s).padcnt = s.padcnt := by
  induction n with
  | zero => rfl
  | succ n ih => simp [storeFill, ih]
@[simp] theorem storeFill_slen (a : Nat) (v : Byte) (n : Nat) (s : State) : (storeFill a v n s).slen = s.slen := by
  induction n with
  | zero => rfl
  | succ n ih => simp [storeFill, ih]
@[simp] theorem storeFill_sec (a : Nat) (v : Byte) (n : Nat) (s : State) : (storeFill a v n s).sec = s.sec := by
  induction n with
  | zero => rfl
  | succ n ih => simp [storeFill, ih]
@[simp] theorem storeFill_work (a : Nat) (v : Byte) (n : Nat) (s : State) : (storeFill a v n s).work = s.work := by
  induction n with
  | zero => rfl
  | succ n ih => simp [storeFill, ih]
@[simp] theorem storeFill_draws (a : Nat) (v : Byte) (n : Nat) (s : State) : (storeFill a v n s).draws = s.draws := by
  induction n with
  | zero => rfl
  | succ n ih => simp [storeFill, ih]
@[simp] theorem storeFill_script (a : Nat) (v : Byte) (n : Nat) (s : State) : (storeFill a v n s).script = s.script := by
  induction n with
  | zero => rfl
  | succ n ih => simp [storeFill, ih]
@[simp] theorem storeFill_returned (a : Nat) (v : Byte) (n : Nat) (s : State) : (storeFill a v n s).returned = s.returned := by
  induction n with
  | zero => rfl
  | succ n ih => simp [storeFill, ih]

@[simp] theorem storeBlock_k (a : Nat) (w : Work) (s : State) : (storeBlock a w s).k = s.k := by
  simp only [storeBlock, storeWord_k, setWork_k]
@[simp] theorem storeBlock_keyvalid (a : Nat) (w : Work) (s : State) : (storeBlock a w s).keyvalid = s.keyvalid := by
  simp only [storeBlock, storeWord_keyvalid, setWork_keyvalid]
@[simp] theorem storeBlock_errcode (a : Nat) (w : Work) (s : State) : (storeBlock a w s).errcode = s.errcode := by
  simp only [storeBlock, storeWord_errcode, setWork_errcode]
@[simp] theorem storeBlock_padfull (a : Nat) (w : Work) (s : State) : (storeBlock a w s).padfull = s.padfull := by
  simp only [storeBlock, storeWord_padfull, setWork_padfull]
@[simp] theorem storeBlock_len (a : Nat) (w : Work) (s : State) : (storeBlock a w s).len = s.len := by
  simp only [storeBlock, storeWord_len, setWork_len]
@[simp] theorem storeBlock_padcnt (a : Nat) (w : Work) (s : State) : (storeBlock a w s).padcnt = s.padcnt := by
  simp only [storeBlock, storeWord_padcnt, setWork_padcnt]
@[simp] theorem storeBlock_slen (a : Nat) (w : Work) (s : State) : (storeBlock a w s).slen = s.slen := by
  simp only [storeBlock, storeWord_slen, setWork_slen]
@[simp] theorem storeBlock_sec (a : Nat) (w : Work) (s : State) : (storeBlock a w s).sec = s.sec := by
  simp only [storeBlock, storeWord_sec, setWork_sec]
@[simp] theorem storeBlock_draws (a : Nat) (w : Work) (s : State) : (storeBlock a w s).draws = s.draws := by
  simp only [storeBlock, storeWord_draws, setWork_draws]
@[simp] theorem storeBlock_script (a : Nat) (w : Work) (s : State) : (storeBlock a w s).script = s.script := by
  simp only [storeBlock, storeWord_script, setWork_script]
@[simp] theorem storeBlock_returned (a : Nat) (w : Work) (s : State) : (storeBlock a w s).returned = s.returned := by
  simp only [storeBlock, storeWord_returned, setWork_returned]
@[simp] theorem storeBlock_work (a : Nat) (w : Work) (s : State) : (storeBlock a w s).work = w := by
  simp only [storeBlock, storeWord_work, setWork_work]

@[simp] theorem cipherBlock_k (d : Direction) (a : Nat) (s : State) : (cipherBlock d a s).k = s.k :=
  storeBlock_k _ _ _
@[simp] theorem cipherBlock_keyvalid (d : Direction) (a : Nat) (s : State) : (cipherBlock d a s).keyvalid = s.keyvalid :=
  storeBlock_keyvalid _ _ _
@[simp] theorem cipherBlock_errcode (d : Direction) (a : Nat) (s : State) : (cipherBlock d a s).errcode = s.errcode :=
  storeBlock_errcode _ _ _
@[simp] theorem cipherBlock_padfull (d : Direction) (a : Nat) (s : State) : (cipherBlock d a s).padfull = s.padfull :=
  storeBlock_padfull _ _ _
@[simp] theorem cipherBlock_len (d : Direction) (a : Nat) (s : State) : (cipherBlock d a s).len = s.len :=
  storeBlock_len _ _ _
@[simp] theorem cipherBlock_padcnt (d : Direction) (a : Nat) (s : State) : (cipherBlock d a s).padcnt = s.padcnt :=
  storeBlock_padcnt _ _ _
@[simp] theorem cipherBlock_slen (d : Direction) (a : Nat) (s : State) : (cipherBlock d a s).slen = s.slen :=
  storeBlock_slen _ _ _
@[simp] theorem cipherBlock_sec (d : Direction) (a : Nat) (s : State) : (cipherBlock d a s).sec = s.sec :=
  storeBlock_sec _ _ _
@[simp] theorem cipherBlock_draws (d : Direction) (a : Nat) (s : State) : (cipherBlock d a s).draws = s.draws :=
  storeBlock_draws _ _ _
@[simp] theorem cipherBlock_script (d : Direction) (a : Nat) (s : State) : (cipherBlock d a s).script = s.script :=
  storeBlock_script _ _ _
@[simp] theorem cipherBlock_returned (d : Direction) (a : Nat) (s : State) : (cipherBlock d a s).returned = s.returned :=
  storeBlock_returned _ _ _
@[simp] theorem cipherBlock_work (d : Direction) (a : Nat) (s : State) :
    (cipherBlock d a s).work = cryptWork d s.k (wordAt s a) (wordAt s (a + 4)) := storeBlock_work _ _ _

@[simp] theorem transformBlocks_k (d : Direction) (n : Nat) (s : State) : (transformBlocks d n s).k = s.k := by
  induction n with
  | zero => rfl
  | succ n ih => simp [transformBlocks, ih]
@[simp] theorem transformBlocks_keyvalid (d : Direction) (n : Nat) (s : State) : (transformBlocks d n s).keyvalid = s.keyvalid := by
  induction n with
  | zero => rfl
  | succ n ih => simp [transformBlocks, ih]
@[simp] theorem transformBlocks_errcode (d : Direction) (n : Nat) (s : State) : (transformBlocks d n s).errcode = s.errcode := by
  induction n with
  | zero => rfl
  | succ n ih => simp [transformBlocks, ih]
@[simp] theorem transformBlocks_padfull (d : Direction) (n : Nat) (s : State) : (transformBlocks d n s).padfull = s.padfull := by
  induction n with
  | zero => rfl
  | succ n ih => simp [transformBlocks, ih]
@[simp] theorem transformBlocks_len (d : Direction) (n : Nat) (s : State) : (transformBlocks d n s).len = s.len := by
  induction n with
  | zero => rfl
  | succ n ih => simp [transformBlocks, ih]
@[simp] theorem transformBlocks_padcnt (d : Direction) (n : Nat) (s : State) : (transformBlocks d n s).padcnt = s.padcnt := by
  induction n with
  | zero => rfl
  | succ n ih => simp [transformBlocks, ih]
@[simp] theorem transformBlocks_slen (d : Direction) (n : Nat) (s : State) : (transformBlocks d n s).slen = s.slen := by
  induction n with
  | zero => rfl
  | succ n ih => simp [transformBlocks, ih]
@[simp] theorem transformBlocks_sec (d : Direction) (n : Nat) (s : State) : (transformBlocks d n s).sec = s.sec := by
  induction n with
  | zero => rfl
  | succ n ih => simp [transformBlocks, ih]
@[simp] theorem transformBlocks_draws (d : Direction) (n : Nat) (s : State) : (transformBlocks d n s).draws = s.draws := by
  induction n with
  | zero => rfl
  | succ n ih => simp [transformBlocks, ih]
@[simp] theorem transformBlocks_script (d : Direction) (n : Nat) (s : State) : (transformBlocks d n s).script = s.script := by
  induction n with
  | zero => rfl
  | succ n ih => simp [transformBlocks, ih]
@[simp] theorem transformBlocks_returned (d : Direction) (n : Nat) (s : State) : (transformBlocks d n s).returned = s.returned := by
  induction n with
  | zero => rfl
  | succ n ih => simp [transformBlocks, ih]

@[simp] theorem applyPadding_k (p : Nat) (s : State) : (applyPadding p s).k = s.k := by
  simp [applyPadding]
@[simp] theorem applyPadding_keyvalid (p : Nat) (s : State) : (applyPadding p s).keyvalid = s.keyvalid := by
  simp [applyPadding]
@[simp] theorem applyPadding_errcode (p : Nat) (s : State) : (applyPadding p s).errcode = s.errcode := by
  simp [applyPadding]
@[simp] theorem applyPadding_padfull (p : Nat) (s : State) : (applyPadding p s).padfull = s.padfull := by
  simp [applyPadding]
@[simp] theorem applyPadding_padcnt (p : Nat) (s : State) : (applyPadding p s).padcnt = s.padcnt := by
  simp [applyPadding]
@[simp] theorem applyPadding_slen (p : Nat) (s : State) : (applyPadding p s).slen = s.slen := by
  simp [applyPadding]
@[simp] theorem applyPadding_sec (p : Nat) (s : State) : (applyPadding p s).sec = s.sec := by
  simp [applyPadding]
@[simp] theorem applyPadding_work (p : Nat) (s : State) : (applyPadding p s).work = s.work := by
  simp [applyPadding]
@[simp] theorem applyPadding_draws (p : Nat) (s : State) : (applyPadding p s).draws = s.draws := by
  simp [applyPadding]
@[simp] theorem applyPadding_script (p : Nat) (s : State) : (applyPadding p s).script = s.script := by
  simp [applyPadding]
@[simp] theorem applyPadding_returned (p : Nat) (s : State) : (applyPadding p s).returned = s.returned := by
  simp [applyPadding]

/-! ## What every byte reads as -/

theorem byteAt_def (s : State) (a : Nat) : byteAt s a = s.buf.read a := (rfl)

theorem byteAt_storeByte (a : Nat) (v : Byte) (s : State) (x : Nat) :
    byteAt (storeByte a v s) x = if x = a then v else byteAt s x := read_write _ _ _ _

theorem byteAt_setWork (w : Work) (s : State) (x : Nat) : byteAt (setWork w s) x = byteAt s x := (rfl)

/-- A word store writes its four bytes, the least significant at the lowest address (20_memory.md
R43), and no other. -/
theorem byteAt_storeWord (a : Nat) (w : Word) (s : State) (x : Nat) : byteAt (storeWord a w s) x =
    if a ≤ x ∧ x < a + 4 then byteOfWord w (x - a) else byteAt s x := by
  simp only [storeWord, byteAt_storeByte]
  by_cases h : a ≤ x ∧ x < a + 4
  · obtain ⟨i, hi, rfl⟩ : ∃ i, i < 4 ∧ x = a + i := ⟨x - a, by omega, by omega⟩
    rw [if_pos h, Nat.add_sub_cancel_left]
    interval_cases i <;> simp
  · rw [if_neg h, if_neg (by omega), if_neg (by omega), if_neg (by omega), if_neg (by omega)]

/-- A fill writes its bytes and no other (42_padding_codec.md R111). -/
theorem byteAt_storeFill (a : Nat) (v : Byte) (n : Nat) (s : State) (x : Nat) :
    byteAt (storeFill a v n s) x = if a ≤ x ∧ x < a + n then v else byteAt s x := by
  induction n with
  | zero => rw [if_neg (by omega)]; rfl
  | succ n ih =>
    rw [storeFill, byteAt_storeByte, ih]
    split_ifs <;> first | rfl | omega

/-- Writing a block back writes its eight bytes and no other (40_block_transform.md R87). -/
theorem byteAt_storeBlock (a : Nat) (w : Work) (s : State) (x : Nat) :
    byteAt (storeBlock a w s) x =
      if a ≤ x ∧ x < a + 8 then byteOfBlock (w.v0, w.v1) (x - a) else byteAt s x := by
  simp only [storeBlock, byteAt_storeWord, byteAt_setWork, byteOfBlock, Nat.sub_sub]
  split_ifs <;> first | rfl | omega

/-- Transforming a block writes its eight bytes and no other (40_block_transform.md R87). -/
theorem byteAt_cipherBlock (d : Direction) (a : Nat) (s : State) (x : Nat) :
    byteAt (cipherBlock d a s) x =
      if a ≤ x ∧ x < a + 8 then byteOfBlock (cryptBlock d s.k (wordAt s a) (wordAt s (a + 4))) (x - a)
      else byteAt s x :=
  byteAt_storeBlock _ _ _ _

/-- Transforming the first `n` blocks: every byte below `8 * n` is the byte of its own block's
transform, and no other byte moves (43_block_stream.md R130, R133). -/
theorem byteAt_transformBlocks (d : Direction) (n : Nat) (s : State) (a : Nat) :
    byteAt (transformBlocks d n s) a = if a < 8 * n then streamByte d s.k (byteAt s) a else byteAt s a := by
  induction n generalizing a with
  | zero => rw [if_neg (by omega), transformBlocks]
  | succ n ih =>
    have ha : blockAddr n = 8 * n := rfl
    have hb : ∀ x, 8 * n ≤ x → byteAt (transformBlocks d n s) x = byteAt s x := fun x hx => by
      rw [ih, if_neg (by omega)]
    have hw : wordAt (transformBlocks d n s) (8 * n) = (blockOf (byteAt s) n).1 ∧
        wordAt (transformBlocks d n s) (8 * n + 4) = (blockOf (byteAt s) n).2 := by
      simp only [wordAt, blockOf]
      repeat rw [hb _ (by omega)]
      exact ⟨rfl, rfl⟩
    rw [transformBlocks, byteAt_cipherBlock, ha, transformBlocks_k, hw.1, hw.2, ih]
    by_cases h1 : 8 * n ≤ a ∧ a < 8 * n + 8
    · rw [if_pos h1, if_pos (by omega), streamByte, show a / 8 = n by omega, show a % 8 = a - 8 * n by omega]
    · rw [if_neg h1]
      split_ifs <;> first | rfl | omega

/-! ## ERRCODE and PADCNT are beside the point of a store -/

theorem storeByte_setErrcode (a : Nat) (v : Byte) (c : BitVec 8) (s : State) :
    storeByte a v (setErrcode c s) = setErrcode c (storeByte a v s) := (rfl)

theorem storeWord_setErrcode (a : Nat) (w : Word) (c : BitVec 8) (s : State) :
    storeWord a w (setErrcode c s) = setErrcode c (storeWord a w s) := by
  simp only [storeWord, storeByte_setErrcode]

theorem setWork_setErrcode (w : Work) (c : BitVec 8) (s : State) : setWork w (setErrcode c s) = setErrcode c (setWork w s) := (rfl)

theorem wordAt_setErrcode (c : BitVec 8) (s : State) (a : Nat) : wordAt (setErrcode c s) a = wordAt s a := (rfl)

theorem cipherBlock_setErrcode (d : Direction) (a : Nat) (c : BitVec 8) (s : State) :
    cipherBlock d a (setErrcode c s) = setErrcode c (cipherBlock d a s) := by
  simp only [cipherBlock, storeBlock, wordAt_setErrcode, setErrcode_k, setWork_setErrcode, storeWord_setErrcode]

theorem transformBlocks_setErrcode (d : Direction) (n : Nat) (c : BitVec 8) (s : State) :
    transformBlocks d n (setErrcode c s) = setErrcode c (transformBlocks d n s) := by
  induction n with
  | zero => rfl
  | succ n ih => rw [transformBlocks, ih, cipherBlock_setErrcode, transformBlocks]

theorem storeByte_setPadcnt (a : Nat) (v : Byte) (p : Word) (s : State) :
    storeByte a v (setPadcnt p s) = setPadcnt p (storeByte a v s) := (rfl)

theorem storeWord_setPadcnt (a : Nat) (w : Word) (p : Word) (s : State) :
    storeWord a w (setPadcnt p s) = setPadcnt p (storeWord a w s) := by
  simp only [storeWord, storeByte_setPadcnt]

theorem setWork_setPadcnt (w : Work) (p : Word) (s : State) : setWork w (setPadcnt p s) = setPadcnt p (setWork w s) := (rfl)

theorem wordAt_setPadcnt (p : Word) (s : State) (a : Nat) : wordAt (setPadcnt p s) a = wordAt s a := (rfl)

theorem cipherBlock_setPadcnt (d : Direction) (a : Nat) (p : Word) (s : State) :
    cipherBlock d a (setPadcnt p s) = setPadcnt p (cipherBlock d a s) := by
  simp only [cipherBlock, storeBlock, wordAt_setPadcnt, setPadcnt_k, setWork_setPadcnt, storeWord_setPadcnt]

theorem transformBlocks_setPadcnt (d : Direction) (n : Nat) (p : Word) (s : State) :
    transformBlocks d n (setPadcnt p s) = setPadcnt p (transformBlocks d n s) := by
  induction n with
  | zero => rfl
  | succ n ih => rw [transformBlocks, ih, cipherBlock_setPadcnt, transformBlocks]

/-! ## Size and canonical form -/

@[simp] theorem storeWord_cap (a : Nat) (w : Word) (s : State) : (storeWord a w s).buf.cap = s.buf.cap := by
  simp only [storeWord, storeByte_buf, write_cap]

@[simp] theorem storeWord_draw (a : Nat) (w : Word) (s : State) : (storeWord a w s).buf.draw = s.buf.draw := by
  simp only [storeWord, storeByte_buf, write_draw]

@[simp] theorem storeFill_cap (a : Nat) (v : Byte) (n : Nat) (s : State) :
    (storeFill a v n s).buf.cap = s.buf.cap := by
  induction n with
  | zero => rfl
  | succ n ih => simp [storeFill, ih]

@[simp] theorem storeFill_draw (a : Nat) (v : Byte) (n : Nat) (s : State) :
    (storeFill a v n s).buf.draw = s.buf.draw := by
  induction n with
  | zero => rfl
  | succ n ih => simp [storeFill, ih]

@[simp] theorem storeBlock_cap (a : Nat) (w : Work) (s : State) : (storeBlock a w s).buf.cap = s.buf.cap := by
  simp only [storeBlock, storeWord_cap, setWork_buf]

@[simp] theorem storeBlock_draw (a : Nat) (w : Work) (s : State) : (storeBlock a w s).buf.draw = s.buf.draw := by
  simp only [storeBlock, storeWord_draw, setWork_buf]

@[simp] theorem cipherBlock_cap (d : Direction) (a : Nat) (s : State) : (cipherBlock d a s).buf.cap = s.buf.cap :=
  storeBlock_cap _ _ _

@[simp] theorem cipherBlock_draw (d : Direction) (a : Nat) (s : State) : (cipherBlock d a s).buf.draw = s.buf.draw :=
  storeBlock_draw _ _ _

@[simp] theorem transformBlocks_cap (d : Direction) (n : Nat) (s : State) :
    (transformBlocks d n s).buf.cap = s.buf.cap := by
  induction n with
  | zero => rfl
  | succ n ih => simp [transformBlocks, ih]

@[simp] theorem transformBlocks_draw (d : Direction) (n : Nat) (s : State) :
    (transformBlocks d n s).buf.draw = s.buf.draw := by
  induction n with
  | zero => rfl
  | succ n ih => simp [transformBlocks, ih]

/-- Byte stores keep the canonical form. -/
theorem wf_storeByte {s : State} (h : s.buf.wf = true) {a : Nat} (ha : a < s.buf.cap) (v : Byte) :
    (storeByte a v s).buf.wf = true := wf_write h ha v

/-- Word stores keep the canonical form. -/
theorem wf_storeWord {s : State} (h : s.buf.wf = true) {a : Nat} (ha : a + 4 ≤ s.buf.cap) (w : Word) :
    (storeWord a w s).buf.wf = true :=
  wf_storeByte (wf_storeByte (wf_storeByte (wf_storeByte h (by omega) _)
    (by simp only [storeByte_buf, write_cap]; omega) _) (by simp only [storeByte_buf, write_cap]; omega) _)
    (by simp only [storeByte_buf, write_cap]; omega) _

/-- Fills keep the canonical form. -/
theorem wf_storeFill {s : State} (h : s.buf.wf = true) (a : Nat) (v : Byte) {n : Nat} (ha : a + n ≤ s.buf.cap) :
    (storeFill a v n s).buf.wf = true := by
  induction n with
  | zero => exact h
  | succ n ih => exact wf_storeByte (ih (by omega)) (by rw [storeFill_cap]; omega) v

/-- Writing a block back inside the buffer keeps the canonical form. -/
theorem wf_storeBlock {s : State} (h : s.buf.wf = true) {a : Nat} (ha : a + 8 ≤ s.buf.cap) (w : Work) :
    (storeBlock a w s).buf.wf = true :=
  wf_storeWord (wf_storeWord (s := setWork w s) h (by simp only [setWork_buf]; omega) _)
    (by simp only [storeWord_cap, setWork_buf]; omega) _

/-- Transforming a block inside the buffer keeps the canonical form. -/
theorem wf_cipherBlock {s : State} (h : s.buf.wf = true) (d : Direction) {a : Nat} (ha : a + 8 ≤ s.buf.cap) :
    (cipherBlock d a s).buf.wf = true := wf_storeBlock h ha _

/-- Transforming blocks inside the buffer keeps the canonical form. -/
theorem wf_transformBlocks {s : State} (h : s.buf.wf = true) (d : Direction) {n : Nat}
    (hn : 8 * n ≤ s.buf.cap) : (transformBlocks d n s).buf.wf = true := by
  induction n with
  | zero => exact h
  | succ n ih =>
    exact wf_cipherBlock (ih (by omega)) d (by simp only [transformBlocks_cap, blockAddr, Config.BLOCK_BYTES]; omega)

/-- Applying the padding inside the buffer keeps the canonical form. -/
theorem wf_applyPadding {s : State} (h : s.buf.wf = true) {p : Nat} (hp : bufLen s + p ≤ s.buf.cap) :
    (applyPadding p s).buf.wf = true := wf_storeFill h _ _ hp

end Sys2Proof.Machine
end

