-- ==== Sys2Proof/Laws/Commands.lean ====
section
/-!
SUPPORT. Everything each meaning can answer, said once: if it answers a next state, then one of the
cases of its rule holds, with the conditions in numbers. Later proofs cite these and unfold no meaning.
-/

namespace Sys2Proof.Machine

variable {s t : State}

/-! ## The two ends of a command -/

theorem raise_eq_next {e : ResultCode} : raise e s = .next t ↔ t = setErrcode e.code s := by
  simp [raise, eq_comm]

theorem succeed_eq_next : succeed s = .next t ↔ t = setErrcode 0 s := by
  simp [succeed, ResultCode.code, eq_comm]

/-! ## The checks in numbers -/

theorem blockAddr_eq (n : Nat) : blockAddr n = 8 * n := rfl

theorem blockOutOfRange_eq_true {n : Nat} : blockOutOfRange n s = true ↔ s.buf.cap < 8 * n + 8 := by
  rw [blockOutOfRange, decide_eq_true_iff]
  rfl

theorem lenOutOfRange_eq_true {p : Nat} : lenOutOfRange p s = true ↔ s.buf.cap < s.len.toNat + p := by
  rw [lenOutOfRange, Bool.not_eq_true', decide_eq_false_iff_not, Nat.not_le]

theorem lenNotBlockMultiple_eq_true : lenNotBlockMultiple s = true ↔ s.len.toNat % 8 ≠ 0 := by
  rw [lenNotBlockMultiple, bne_iff_ne]
  rfl

theorem blockCount_eq : blockCount s = s.len.toNat / 8 := rfl

/-- The padding count in numbers (42_padding_codec.md R110). -/
theorem computePadding_eq (len : Nat) (padfull : Bool) : computePadding len padfull =
    if len % 8 = 0 ∧ padfull = false then 0 else 8 - len % 8 := by
  have h : Config.BLOCK_BYTES = 8 := rfl
  rw [computePadding, h]
  by_cases hp : padfull = false
  · by_cases hm : len % 8 = 0
    · simp [hp, hm]
    · rw [if_neg (by omega), if_neg (by omega)]
  · simp [hp]

/-! ## The commands -/

theorem execNop_eq : execNop s = .next (setErrcode 0 s) := rfl

theorem cryptBlockCommand_cases {d : Direction} {n : Nat} (h : cryptBlockCommand d n s = .next t) :
    (s.keyvalid = false ∧ t = setErrcode 5 s) ∨
    (s.keyvalid = true ∧ s.buf.cap < 8 * n + 8 ∧ t = setErrcode 4 s) ∨
    (s.keyvalid = true ∧ 8 * n + 8 ≤ s.buf.cap ∧ t = setErrcode 0 (cipherBlock d (8 * n) s)) := by
  unfold cryptBlockCommand at h
  split at h
  · next hk => exact .inl ⟨hk, raise_eq_next.1 h⟩
  · next hk =>
    replace hk : s.keyvalid = true := by simpa using hk
    split at h
    · next hr => exact .inr (.inl ⟨hk, blockOutOfRange_eq_true.1 hr, raise_eq_next.1 h⟩)
    · next hr =>
      rw [blockOutOfRange_eq_true, Nat.not_lt] at hr
      exact .inr (.inr ⟨hk, hr, succeed_eq_next.1 h⟩)

theorem cryptBufCommand_cases {d : Direction} (h : cryptBufCommand d s = .next t) :
    (s.keyvalid = false ∧ t = setErrcode 5 s) ∨
    (s.keyvalid = true ∧ s.buf.cap < s.len.toNat ∧ t = setErrcode 4 s) ∨
    (s.keyvalid = true ∧ s.len.toNat ≤ s.buf.cap ∧ s.len.toNat % 8 ≠ 0 ∧ t = setErrcode 6 s) ∨
    (s.keyvalid = true ∧ s.len.toNat ≤ s.buf.cap ∧ s.len.toNat % 8 = 0 ∧
      t = setErrcode 0 (transformBlocks d (s.len.toNat / 8) s)) := by
  unfold cryptBufCommand at h
  split at h
  · next hk => exact .inl ⟨hk, raise_eq_next.1 h⟩
  · next hk =>
    replace hk : s.keyvalid = true := by simpa using hk
    split at h
    · next hr => exact .inr (.inl ⟨hk, by simpa using lenOutOfRange_eq_true.1 hr, raise_eq_next.1 h⟩)
    · next hr =>
      rw [lenOutOfRange_eq_true, Nat.not_lt, Nat.add_zero] at hr
      split at h
      · next hm => exact .inr (.inr (.inl ⟨hk, hr, lenNotBlockMultiple_eq_true.1 hm, raise_eq_next.1 h⟩))
      · next hm =>
        rw [lenNotBlockMultiple_eq_true, not_not] at hm
        exact .inr (.inr (.inr ⟨hk, hr, hm, succeed_eq_next.1 h⟩))

/-- The padding is there, or it is not; PADCNT and LEN follow (42_padding_codec.md R113, R114). -/
theorem removePadding_cases (h : removePadding s = .next t) :
    (stripPadding (byteAt s) s.len.toNat = none ∧ t = setErrcode 2 s) ∨
    (∃ p, stripPadding (byteAt s) s.len.toNat = some p ∧
      t = setErrcode 0 (setPadcnt (BitVec.ofNat 32 p) (setLen (BitVec.ofNat 32 (s.len.toNat - p)) s))) := by
  unfold removePadding at h
  split at h
  · next hs => exact .inl ⟨hs, raise_eq_next.1 h⟩
  · next p hs => exact .inr ⟨p, hs, succeed_eq_next.1 h⟩

/-- A count that is removed is in 1..8 and not above the length (42_padding_codec.md R113 (a) to (c)). -/
theorem stripPadding_bounds {b : Nat → Byte} {len p : Nat} (h : stripPadding b len = some p) :
    1 ≤ p ∧ p ≤ 8 ∧ p ≤ len := by
  have h8 : Config.BLOCK_BYTES = 8 := rfl
  simp only [stripPadding, h8] at h
  split_ifs at h
  cases h
  omega

theorem execPad_cases (h : execPad s = .next t) :
    (s.buf.cap < s.len.toNat + computePadding s.len.toNat s.padfull ∧ t = setErrcode 4 s) ∨
    (s.len.toNat + computePadding s.len.toNat s.padfull ≤ s.buf.cap ∧
      t = setErrcode 0 (setPadcnt (BitVec.ofNat 32 (computePadding s.len.toNat s.padfull))
        (applyPadding (computePadding s.len.toNat s.padfull) s))) := by
  unfold execPad at h
  split at h
  · next hr =>
    rw [lenOutOfRange_eq_true] at hr
    exact .inl ⟨by omega, raise_eq_next.1 h⟩
  · dsimp only at h
    split at h
    · next hr => exact .inl ⟨lenOutOfRange_eq_true.1 hr, raise_eq_next.1 h⟩
    · next hr =>
      rw [lenOutOfRange_eq_true, Nat.not_lt] at hr
      exact .inr ⟨hr, succeed_eq_next.1 h⟩

theorem execUnpad_cases (h : execUnpad s = .next t) :
    (s.buf.cap < s.len.toNat ∧ t = setErrcode 4 s) ∨
    (s.len.toNat ≤ s.buf.cap ∧ removePadding s = .next t) := by
  unfold execUnpad at h
  split at h
  · next hr => exact .inl ⟨by simpa using lenOutOfRange_eq_true.1 hr, raise_eq_next.1 h⟩
  · next hr =>
    rw [lenOutOfRange_eq_true, Nat.not_lt, Nat.add_zero] at hr
    exact .inr ⟨hr, h⟩

theorem execEncrypt_cases (h : execEncrypt s = .next t) :
    (s.keyvalid = false ∧ t = setErrcode 5 s) ∨
    (s.keyvalid = true ∧ s.buf.cap < s.len.toNat + computePadding s.len.toNat s.padfull ∧ t = setErrcode 4 s) ∨
    (s.keyvalid = true ∧ s.len.toNat + computePadding s.len.toNat s.padfull ≤ s.buf.cap ∧
      t = setErrcode 0 (setPadcnt (BitVec.ofNat 32 (computePadding s.len.toNat s.padfull))
        (transformBlocks .encrypt (blockCount (applyPadding (computePadding s.len.toNat s.padfull) s))
          (applyPadding (computePadding s.len.toNat s.padfull) s)))) := by
  unfold execEncrypt at h
  split at h
  · next hk => exact .inl ⟨hk, raise_eq_next.1 h⟩
  · next hk =>
    replace hk : s.keyvalid = true := by simpa using hk
    split at h
    · next hr =>
      rw [lenOutOfRange_eq_true] at hr
      exact .inr (.inl ⟨hk, by omega, raise_eq_next.1 h⟩)
    · dsimp only at h
      split at h
      · next hr => exact .inr (.inl ⟨hk, lenOutOfRange_eq_true.1 hr, raise_eq_next.1 h⟩)
      · next hr =>
        rw [lenOutOfRange_eq_true, Nat.not_lt] at hr
        exact .inr (.inr ⟨hk, hr, succeed_eq_next.1 h⟩)

theorem execDecrypt_cases (h : execDecrypt s = .next t) :
    (s.keyvalid = false ∧ t = setErrcode 5 s) ∨
    (s.keyvalid = true ∧ s.buf.cap < s.len.toNat ∧ t = setErrcode 4 s) ∨
    (s.keyvalid = true ∧ s.len.toNat ≤ s.buf.cap ∧ (s.len.toNat = 0 ∨ s.len.toNat % 8 ≠ 0) ∧ t = setErrcode 1 s) ∨
    (s.keyvalid = true ∧ s.len.toNat ≤ s.buf.cap ∧ s.len.toNat ≠ 0 ∧ s.len.toNat % 8 = 0 ∧
      removePadding (transformBlocks .decrypt (s.len.toNat / 8) s) = .next t) := by
  unfold execDecrypt at h
  split at h
  · next hk => exact .inl ⟨hk, raise_eq_next.1 h⟩
  · next hk =>
    replace hk : s.keyvalid = true := by simpa using hk
    split at h
    · next hr => exact .inr (.inl ⟨hk, by simpa using lenOutOfRange_eq_true.1 hr, raise_eq_next.1 h⟩)
    · next hr =>
      rw [lenOutOfRange_eq_true, Nat.not_lt, Nat.add_zero] at hr
      split at h
      · next hm =>
        rw [lenNotBlockMultiple_eq_true] at hm
        exact .inr (.inr (.inl ⟨hk, hr, hm, raise_eq_next.1 h⟩))
      · next hm =>
        rw [lenNotBlockMultiple_eq_true, not_or, not_not] at hm
        exact .inr (.inr (.inr ⟨hk, hr, hm.1, hm.2, h⟩))

/-! ## The host port and the step -/

theorem commandDone_eq_next {a : Answer} (h : commandDone a = .next t) : ∃ u, a = .next u ∧ t = forgetWork u := by
  cases a with
  | next u => exact ⟨u, rfl, by simpa [commandDone, eq_comm] using h⟩
  | fault f => exact nomatch f
  | refused r => simp [commandDone] at h

/-- A command word runs its command, or ends with `IllegalCommand` (30_encoding.md R64, R65, R67). -/
theorem runCommand_cases {w : Word} (h : runCommand w s = .next t) :
    (∃ i, decode w = .command i ∧ exec i s = .next t) ∨
    (∃ why, decode w = .illegal why ∧ t = setErrcode 3 s) := by
  unfold runCommand at h
  split at h
  · next i hd => exact .inl ⟨i, hd, h⟩
  · next why hd => exact .inr ⟨why, hd, raise_eq_next.1 h⟩

/-- Everything a step can do (20_memory.md R41, R47). -/
theorem step_cases (h : step s = .next t) :
    (s.script = [] ∧ t = s) ∨
    ∃ e rest, s.script = e :: rest ∧ accept e { s with script := rest } = .next t := by
  unfold step at h
  split at h
  · next hs => exact .inl ⟨hs, by simpa [idle, eq_comm] using h⟩
  · next e rest hs => exact .inr ⟨e, rest, hs, h⟩

theorem step_nil (h : s.script = []) : step s = .next s := by
  simp [step, h, idle]

theorem step_cons {e : HostEvent} {rest : List HostEvent} (h : s.script = e :: rest) :
    step s = accept e { s with script := rest } := by
  simp [step, h]

/-- The registers of the map stand at their offsets (10_state.md R15). -/
@[simp] theorem regAt_offset (r : Reg) : regAt r.offset = some r := by
  cases r <;> rfl

/-- A write to a register of the map (10_state.md R15). -/
theorem step_regWrite {r : Reg} {v : Word} {rest : List HostEvent} (h : s.script = .regWrite r.offset v :: rest) :
    step s = writeReg r v { s with script := rest } := by
  rw [step_cons h, accept, regAt_offset]

/-- One step more of a run. -/
theorem run_next {n : Nat} (h : step s = .next t) :
    Host.Core.run Sys2Proof.core (n + 1) s = Host.Core.run Sys2Proof.core n t := by
  have h' : Sys2Proof.core.step s = .next t := h
  simp only [Host.Core.run, h']

end Sys2Proof.Machine
end

