-- ==== Sys2Proof/Laws/PerInstr.lean ====
section
/-!
SUPPORT. Statements made of every command as syntax, one lemma per constructor. Family EncodeFields:
the encoded word of a well-formed command carries the command's OPC and ARG in their fields
(30_encoding.md R60 to R63).
-/

namespace Sys2Proof.Laws

/-- OPC of an encoded pair of fields. -/
theorem opcField_ofNat (arg opc : Nat) (ho : opc < 2 ^ 8) :
    (opcField (BitVec.ofNat 32 (arg * 2 ^ 8 + opc))).toNat = opc := by
  simp only [opcField, BitVec.extractLsb'_toNat, BitVec.toNat_ofNat, Nat.shiftRight_zero]
  omega

/-- ARG of an encoded pair of fields. -/
theorem argField_ofNat (arg opc : Nat) (ha : arg < 2 ^ 24) (ho : opc < 2 ^ 8) :
    (argField (BitVec.ofNat 32 (arg * 2 ^ 8 + opc))).toNat = arg := by
  simp only [argField, BitVec.extractLsb'_toNat, BitVec.toNat_ofNat, Nat.shiftRight_eq_div_pow]
  omega

end Sys2Proof.Laws

namespace Sys2Proof.Laws.EncodeFields

/-- A well-formed command's word has its OPC in bits 7:0 and its ARG in bits 31:8. -/
def Statement (i : Instr) : Prop :=
  i.wf = true → (opcField (encode i)).toNat = i.opcode ∧ (argField (encode i)).toNat = i.arg

/-- The fields, from the bounds on ARG and OPC. -/
theorem of_bounds {i : Instr} (ha : i.wf = true → i.arg < 2 ^ 24) (ho : i.opcode < 2 ^ 8) : Statement i :=
  fun h => ⟨opcField_ofNat _ _ ho, argField_ofNat _ _ (ha h) ho⟩

theorem nop : Statement .nop := of_bounds (by decide) (by decide)
theorem keyload : Statement .keyload := of_bounds (by decide) (by decide)
theorem encblk (n : Nat) : Statement (.encblk n) :=
  of_bounds (fun h => by simpa [Instr.wf, argFits, Instr.arg] using h) (by simp [Instr.opcode])
theorem decblk (n : Nat) : Statement (.decblk n) :=
  of_bounds (fun h => by simpa [Instr.wf, argFits, Instr.arg] using h) (by simp [Instr.opcode])
theorem pad : Statement .pad := of_bounds (by decide) (by decide)
theorem unpad : Statement .unpad := of_bounds (by decide) (by decide)
theorem encbuf : Statement .encbuf := of_bounds (by decide) (by decide)
theorem decbuf : Statement .decbuf := of_bounds (by decide) (by decide)
theorem encrypt : Statement .encrypt := of_bounds (by decide) (by decide)
theorem decrypt : Statement .decrypt := of_bounds (by decide) (by decide)
theorem keyclr : Statement .keyclr := of_bounds (by decide) (by decide)

end Sys2Proof.Laws.EncodeFields
end

