-- ==== Sys2Proof/Tests/Slice0.lean ====
section
/-!
SUPPORT. Tests of one step each, their results taken from the spec's tables and test vectors
(95_test_vectors.md, whose vectors assume BUFCAP = 64), and a witness for the hypotheses of every
statement that has some.
-/

set_option maxRecDepth 100000

namespace Sys2Proof.Tests

open Sys2Proof.Machine

/-! ## Helpers -/

/-- Cells of the bytes at `a`, `a + 1`, ... -/
def cellsAt : Nat → List Byte → List Host.Cell
  | _, [] => []
  | a, b :: bs => (a, b) :: cellsAt (a + 1) bs

/-- The key bytes `00 01 .. 0f` (V-K8). -/
def k8 : Words4 := ⟨0x03020100, 0x07060504, 0x0B0A0908, 0x0F0E0D0C⟩

/-- The key `"abc"` (V-K2). -/
def kAbc : Words4 := ⟨0x00636261, 0, 0, 0⟩

/-- The key `"testkey123456789"` (V-K4). -/
def k4 : Words4 := ⟨0x74736574, 0x3179656B, 0x35343332, 0x39383736⟩

/-- A state with BUFCAP = 64, the bytes `bs` from address `a` on and everything else zero. -/
def base (len : Nat) (a : Nat) (bs : List Byte) : State where
  k := Words4.zero
  keyvalid := false
  errcode := 0
  padfull := false
  len := BitVec.ofNat 32 len
  padcnt := 0
  slen := 0
  sec := Words4.zero
  buf := { cap := 64, draw := 0, cells := cellsAt a bs }
  work := { v0 := 0, v1 := 0, sum := 0, rnd := 0 }
  draws := 1
  script := []
  returned := []

/-- The same with a key loaded. -/
def keyed (k : Words4) (len : Nat) (a : Nat) (bs : List Byte) : State :=
  { base len a bs with k := k, keyvalid := true }

def withScript (s : State) (es : List HostEvent) : State := { s with script := es }

def withPadfull (s : State) : State := { s with padfull := true }

def staged (sec : Words4) (slen : Word) : State := { base 0 0 [] with sec := sec, slen := slen }

/-- The answer is a next state with the property. -/
def after (x : Answer) (p : State → Bool) : Bool :=
  match x with
  | .next s => p s
  | .fault _ => false
  | .refused _ => false

def isNext (x : Answer) : Bool := after x fun _ => true

/-- The next state of an answer that has one. -/
def got (x : Answer) : State :=
  match x with
  | .next s => s
  | .fault _ => State.reset
  | .refused _ => State.reset

theorem next_of (x : Answer) (h : isNext x = true) : x = .next (got x) := by
  cases x with
  | next s => rfl
  | fault f => exact nomatch f
  | refused r => cases h

/-- The bytes at `a`, ..., `a + n - 1`. -/
def bytesOf (s : State) (a n : Nat) : List Byte := (List.range n).map fun i => byteAt s (a + i)

/-- ERRCODE, LEN, PADCNT as numbers. -/
def report (s : State) : Nat × Nat × Nat := (s.errcode.toNat, s.len.toNat, s.padcnt.toNat)

def hello : List Byte := [0x68, 0x65, 0x6C, 0x6C, 0x6F]

def helloCipher : List Byte := [0x22, 0x8D, 0xCF, 0x2A, 0xF4, 0x4E, 0x0C, 0x6E]

def abcdefgh : List Byte := [0x41, 0x42, 0x43, 0x44, 0x45, 0x46, 0x47, 0x48]

def abcdefghCipher : List Byte := [0xCA, 0xE7, 0x69, 0x7E, 0x00, 0x6E, 0xE9, 0x21]

def zeros : List Byte := [0, 0, 0, 0, 0, 0, 0, 0]

/-- V-S1's two blocks and their encryption. -/
def twoBlocks : List Byte := abcdefgh ++ zeros

def twoBlocksCipher : List Byte := abcdefghCipher ++ [0xFA, 0xF7, 0x40, 0xA9, 0x4F, 0xC9, 0x9E, 0x85]

/-- `"HELLO!!!"`, and its encryption under V-K4 (V-B5). -/
def helloShout : List Byte := [0x48, 0x45, 0x4C, 0x4C, 0x4F, 0x21, 0x21, 0x21]

def helloShoutCipher : List Byte := [0xC4, 0x70, 0x83, 0x6C, 0x1D, 0xC5, 0x6F, 0x2D]

/-! ## Well-formedness: 30_encoding.md R62 -/

theorem test_wf_refuses_encblk_index_2_pow_24 : (Instr.encblk (2 ^ 24)).wf = false := by decide
theorem test_wf_refuses_decblk_index_2_pow_24 : (Instr.decblk (2 ^ 24)).wf = false := by decide
theorem test_wf_accepts_encblk_last_index : (Instr.encblk (2 ^ 24 - 1)).wf = true := by decide

/-! ## Decoding: each word as ARG (31:8) before OPC (7:0), 30_encoding.md R60 to R63 -/

theorem test_decode_nop : decode (0x000000#24 ++ 0b00000000#8) = .command .nop := by decide
theorem test_decode_keyload : decode (0x000000#24 ++ 0b00000001#8) = .command .keyload := by decide
theorem test_decode_encblk : decode (0b000000000000000000000001#24 ++ 0b00000010#8) = .command (.encblk 1) := by decide
theorem test_decode_encblk_top : decode (0b100000000000000000000000#24 ++ 0b00000010#8) = .command (.encblk 0x800000) := by
  decide
theorem test_decode_decblk : decode (0b000000000000000000001000#24 ++ 0b00000011#8) = .command (.decblk 8) := by decide
theorem test_decode_pad : decode (0x000000#24 ++ 0b00000100#8) = .command .pad := by decide
theorem test_decode_unpad : decode (0x000000#24 ++ 0b00000101#8) = .command .unpad := by decide
theorem test_decode_encbuf : decode (0x000000#24 ++ 0b00000110#8) = .command .encbuf := by decide
theorem test_decode_decbuf : decode (0x000000#24 ++ 0b00000111#8) = .command .decbuf := by decide
theorem test_decode_encrypt : decode (0x000000#24 ++ 0b00001000#8) = .command .encrypt := by decide
theorem test_decode_decrypt : decode (0x000000#24 ++ 0b00001001#8) = .command .decrypt := by decide
theorem test_decode_keyclr : decode (0x000000#24 ++ 0b00001010#8) = .command .keyclr := by decide

/-- V-X7, V-X8. -/
theorem test_decode_reserved : decode 0x0000000B#32 = .illegal (.reservedOpcode 0x0B) ∧
    decode 0xFFFFFFFF#32 = .illegal (.reservedOpcode 0xFF) ∧ decode 0x1234560B#32 = .illegal (.reservedOpcode 0x0B) := by
  decide

/-- V-X9, V-X14. -/
theorem test_decode_nonzero_arg : decode 0x00000104#32 = .illegal (.nonzeroArg 0x04 1) ∧
    decode 0x00000108#32 = .illegal (.nonzeroArg 0x08 1) := by decide

theorem test_decode_table_word : decodeTableWord 32 0x00000702 = some (.encblk 7) ∧
    decodeTableWord 32 0x0000000A = some .keyclr ∧ decodeTableWord 32 0x00000104 = none := by decide

/-- `ENCBLK n` is `(n << 8) | 0x02` (R63). -/
theorem test_encode_blocks : encode (.encblk 1) = 0x00000102#32 ∧ encode (.decblk 8) = 0x00000803#32 := by decide

/-! ## Commands -/

/-- V-X10. -/
theorem test_nop_status : after (exec .nop { keyed k8 0 0 [] with errcode := 3 }) (fun t => statusWord t == 0x100) = true := by
  decide

/-- V-K10. -/
theorem test_keyload_masks : after (exec .keyload (staged ⟨0xFF636261, 0xAAAAAAAA, 0, 0x12345678⟩ 5))
    (fun t => t.k == ⟨0xFF636261, 0x000000AA, 0, 0⟩ && statusWord t == 0x100) = true := by decide

/-- V-K11. -/
theorem test_keyload_unsigned_slen : after (exec .keyload (staged ⟨0xFF636261, 0xAAAAAAAA, 0, 0x12345678⟩ 0xFFFFFFFF))
    (fun t => t.k == ⟨0xFF636261, 0xAAAAAAAA, 0, 0x12345678⟩) = true := by decide

/-- V-B2, with the block at index 1. -/
theorem test_encblk_vector : after (exec (.encblk 1) (keyed k8 0 8 abcdefgh))
    (fun t => bytesOf t 8 8 == abcdefghCipher && report t == (0, 0, 0)) = true := by decide

/-- V-X5. -/
theorem test_encblk_range : after (exec (.encblk 8) (keyed k8 0 0 [])) (fun t => statusWord t == 0x104) = true := by decide

/-- V-B11. -/
theorem test_decblk_vector : after (exec (.decblk 0) (keyed k8 0 0 abcdefgh))
    (fun t => bytesOf t 0 8 == [0x4C, 0x0E, 0x4F, 0x3D, 0xEC, 0x73, 0x6D, 0x5D]) = true := by decide

/-- V-X15, for DECBLK: `NoKey` precedes `Range`. -/
theorem test_decblk_nokey : after (exec (.decblk 8) (base 0 0 [])) (fun t => statusWord t == 0x005) = true := by decide

/-- V-P2. -/
theorem test_pad_vector : after (exec .pad (base 5 0 hello))
    (fun t => bytesOf t 0 8 == hello ++ [3, 3, 3] && report t == (0, 8, 3)) = true := by decide

/-- V-P5. -/
theorem test_pad_full_block_overflow : after (exec .pad (withPadfull (base 64 0 [])))
    (fun t => report t == (4, 64, 0) && t.buf.cells == []) = true := by decide

/-- V-U8. -/
theorem test_unpad_vector : after (exec .unpad (base 8 0 [0x61, 0x62, 0x63, 5, 5, 5, 5, 5]))
    (fun t => report t == (0, 3, 5) && bytesOf t 3 5 == [5, 5, 5, 5, 5]) = true := by decide

/-- V-U9. -/
theorem test_unpad_not_uniform : after (exec .unpad (base 8 0 [0x61, 0x62, 0x63, 5, 5, 4, 5, 5]))
    (fun t => report t == (2, 8, 0)) = true := by decide

/-- V-S1. -/
theorem test_encbuf_vector : after (exec .encbuf (keyed k8 16 0 twoBlocks))
    (fun t => bytesOf t 0 16 == twoBlocksCipher && report t == (0, 16, 0)) = true := by decide

/-- V-S4. -/
theorem test_encbuf_misaligned : after (exec .encbuf (keyed k8 12 0 twoBlocks))
    (fun t => bytesOf t 0 16 == twoBlocks && report t == (6, 12, 0)) = true := by decide

/-- V-S1. -/
theorem test_decbuf_vector : after (exec .decbuf (keyed k8 16 0 twoBlocksCipher))
    (fun t => bytesOf t 0 16 == twoBlocks && report t == (0, 16, 0)) = true := by decide

/-- V-S4: no block is a success. -/
theorem test_decbuf_empty : after (exec .decbuf (keyed k8 0 0 abcdefgh))
    (fun t => bytesOf t 0 8 == abcdefgh && report t == (0, 0, 0)) = true := by decide

/-- V-E1. -/
theorem test_encrypt_vector : after (exec .encrypt (keyed kAbc 5 0 hello))
    (fun t => bytesOf t 0 8 == helloCipher && report t == (0, 8, 3)) = true := by decide

/-- V-X17. -/
theorem test_encrypt_padded_range : after (exec .encrypt (withPadfull (keyed kAbc 64 0 hello)))
    (fun t => bytesOf t 0 5 == hello && report t == (4, 64, 0)) = true := by decide

/-- V-E1. -/
theorem test_decrypt_vector : after (exec .decrypt (keyed kAbc 8 0 helloCipher))
    (fun t => bytesOf t 0 8 == hello ++ [3, 3, 3] && report t == (0, 5, 3)) = true := by decide

/-- V-E4: the buffer stays decrypted. -/
theorem test_decrypt_invalid_padding : after (exec .decrypt (keyed k4 8 0 helloShoutCipher))
    (fun t => bytesOf t 0 8 == helloShout && report t == (2, 8, 0)) = true := by decide

/-- V-K13. -/
theorem test_keyclr : after (exec .keyclr { staged ⟨0xFF636261, 0xAAAAAAAA, 0, 0x12345678⟩ 3 with k := kAbc, keyvalid := true })
    (fun t => t.k == Words4.zero && t.sec == Words4.zero && t.slen == 0 && statusWord t == 0) = true := by decide

/-! ## The host's transactions -/

/-- V-X7 through CMD, with a key. -/
theorem test_cmd_write_illegal : after (step (withScript (keyed k8 5 0 hello) [.regWrite 0x00 0x0000000B]))
    (fun t => statusWord t == 0x103 && bytesOf t 0 5 == hello && t.script == []) = true := by decide

/-- V-X6 through CMD, with the key and the block of V-B1: the last block of the buffer. -/
theorem test_cmd_write_encblk_7 : after (step (withScript (keyed Words4.zero 0 56 zeros) [.regWrite 0x00 0x00000702]))
    (fun t => statusWord t == 0x100 && bytesOf t 56 8 == [0xD8, 0xD4, 0xE9, 0xDE, 0xD9, 0x1E, 0x13, 0xF7]) = true := by decide

/-- V-R3, V-R4. -/
theorem test_ctrl_write : after (step (withScript (base 0 0 []) [.regWrite 0x08 0xFFFFFFFF])) (fun t => ctrlWord t == 1) = true ∧
    after (step (withScript (base 0 0 []) [.regWrite 0x08 0xFFFFFFFE])) (fun t => ctrlWord t == 0) = true := by decide

/-- V-R5. -/
theorem test_cap_read : after (step (withScript (base 0 0 []) [.regRead 0x18])) (fun t => t.returned == [.word 0x40]) = true := by
  decide

/-- V-R9. -/
theorem test_buf_write_last : after (step (withScript (base 0 0 []) [.bufWrite 63 0xAA])) (fun t => byteAt t 63 == 0xAA) = true ∧
    step (withScript (base 0 0 []) [.bufWrite 64 0xAA]) = .refused (.bufferAccess 64) := ⟨by decide, rfl⟩

/-- 10_state.md R24: a register access that is no transaction. -/
theorem test_register_access_refused : step (withScript (base 0 0 []) [.regRead 0x30]) = .refused (.registerAccess 0x30) ∧
    step (withScript (base 0 0 []) [.regWrite 0x0E 1]) = .refused (.registerAccess 0x0E) := ⟨rfl, rfl⟩

/-- 10_state.md R30, 70_reset_and_hazards.md R180. -/
theorem test_reset_event : after (step (withScript (withPadfull (keyed k8 5 0 hello)) [.reset, .regRead 4]))
    (fun t => t.k == Words4.zero && statusWord t == 0 && ctrlWord t == 0 && report t == (0, 0, 0) && t.buf.cells == [] &&
      t.buf.cap == 64 && t.script == [.regRead 4]) = true := by decide

/-- The first command after reset: KEYLOAD loads the zero key (V-K12). -/
theorem test_first_command_after_reset : after (step (State.reset.withFetchWord 32 0x00000001))
    (fun t => t.k == Words4.zero && statusWord t == 0x100) = true := by decide

/-- `SETKEY "abc"` (program P2). -/
theorem test_setkey_script : Script.setkey [0x61, 0x62, 0x63] = [.regWrite 0x20 0x00636261, .regWrite 0x24 0, .regWrite 0x28 0,
    .regWrite 0x2C 0, .regWrite 0x14 3, .regWrite 0x00 1] := by decide

/-! ## Witnesses: the hypotheses of the statements, met -/

theorem witness_DecodeOfEncodeIsTheCommand : (Instr.encblk (2 ^ 24 - 1)).wf = true ∧ Instr.nop.wf = true := by decide

theorem witness_EncodeOfDecodeIsTheWord : decode 0xFFFFFF03#32 = .command (.decblk (2 ^ 24 - 1)) := by decide

/-- Both sides of every boundary: the last opcode and the first reserved one, ARG 0 and 1, format B. -/
theorem witness_DecodingFollowsOpcAndArg :
    10 < (0x0000000B#32).toNat % 256 ∧ (0x0000010A#32).toNat % 256 = 10 ∧ (0x0000010A#32).toNat / 256 = 1 ∧
    (0x0000000A#32).toNat % 256 = 10 ∧ (0x0000000A#32).toNat / 256 = 0 ∧
    (0xFFFFFF02#32).toNat % 256 = 2 ∧ (0xFFFFFF02#32).toNat / 256 = 0xFFFFFF := by decide

theorem witness_ReservedOpcodeSetsIllegalCommand : 0x0B ≤ (0x0000000B#32).toNat % 256 ∧ 0x0B ≤ (0xFFFFFFFF#32).toNat % 256 ∧
    (withScript (base 0 0 []) [.regWrite 0 0x0000000B]).script = .regWrite 0 0x0000000B :: [] := by decide

theorem witness_NonzeroArgIsIllegalAndLegalWordsAreCounted : (0x0000010A#32).toNat % 256 ≤ 0x0A ∧
    (0x0000010A#32).toNat % 256 ≠ 2 ∧ (0x0000010A#32).toNat % 256 ≠ 3 ∧ (0x0000010A#32).toNat / 256 ≠ 0 ∧
    (withScript (base 0 0 []) [.regWrite 0 0x0000010A]).script = .regWrite 0 0x0000010A :: [] := by decide

theorem witness_StepRunsTheDecodedCommand :
    (withScript (base 5 0 hello) [.regWrite 0 0x00000004]).script = .regWrite 0 0x00000004 :: [] ∧
    decode 0x00000004#32 = .command .pad := by decide

/-- Every offset of the map, reads and writes. -/
theorem witness_RegisterReadsFollowTheMap : ∀ off ∈ [0x00, 0x04, 0x08, 0x0C, 0x10, 0x14, 0x18, 0x1C, 0x20, 0x24, 0x28, 0x2C],
    (withScript (base 0 0 []) [.regRead off]).script = .regRead off :: [] ∧ off % 4 = 0 ∧ off < 0x30 := by decide

theorem witness_RegisterWritesFollowTheMap : ∀ off ∈ [0x04, 0x08, 0x0C, 0x10, 0x14, 0x18, 0x1C, 0x20, 0x24, 0x28, 0x2C],
    (withScript (base 0 0 []) [.regWrite off 7]).script = .regWrite off 7 :: [] ∧ off % 4 = 0 ∧ off < 0x30 ∧ off ≠ 0x00 := by
  decide

theorem witness_BufferTransactionsMoveOneByte : 63 < (base 0 0 []).buf.cap ∧
    (withScript (base 0 0 []) [.bufWrite 63 1]).script = .bufWrite 63 1 :: [] ∧
    (withScript (base 0 0 []) [.bufRead 63]).script = .bufRead 63 :: [] := by decide

theorem witness_ExactlyOutsideTransactionsAreRefused :
    HostEvent.inInterface 64 (.regWrite 0x2C 0) = true ∧ HostEvent.inInterface 64 (.regWrite 0x30 0) = false ∧
    HostEvent.inInterface 64 (.regRead 0x2E) = false ∧ HostEvent.inInterface 64 (.bufRead 63) = true ∧
    HostEvent.inInterface 64 (.bufWrite 64 0) = false ∧ HostEvent.inInterface 64 .reset = true ∧
    (withScript (base 0 0 []) [.bufRead 63]).script = .bufRead 63 :: [] := by decide

theorem witness_ResetEventGivesTheResetValues : (withScript (keyed k8 5 0 hello) [.reset]).script = .reset :: [] := by decide

theorem witness_KeyRegistersAreUnreadable : ∃ (s t t' : State) (k' : Words4), k' ≠ s.k ∧ step s = .next t ∧
    step { s with k := k' } = .next t' :=
  ⟨withScript (keyed k8 0 0 []) [.regRead 4], got _, got _, k4, by decide, next_of _ (by decide), next_of _ (by decide)⟩

theorem witness_WordAccessesAreLittleEndian : (3 : Nat) < 4 ∧ ((3 : Nat) < 4 ∨ 4 + 4 ≤ 3) ∧ ((8 : Nat) < 4 ∨ 4 + 4 ≤ 8) := by decide

/-- A keyed state with PAD as the next command, and the step from it, which writes memory. -/
theorem witness_EveryStepKeepsTheInvariant : ∃ s t : State, s.Inv ∧ step s = .next t ∧ t.buf ≠ s.buf :=
  ⟨withScript (keyed kAbc 5 0 hello) [.regWrite 0 4], got _,
    ⟨by decide, by decide, by decide, by decide, by decide⟩, next_of _ (by decide), by decide⟩

theorem witness_SafeRunsNeverStop : (withScript (base 0 0 []) [.regWrite 0x2C 1, .bufRead 63, .reset]).Safe ∧
    (base 0 0 []).script = [] := by
  unfold State.Safe
  decide

/-- `NoKey` (V-X1), an illegal word (V-X9), and DECRYPT ending in `InvalidPadding` (V-E4). -/
theorem witness_FailedCommandChangesOnlyErrcode :
    after (runCommand 0x00000008#32 (base 5 0 hello)) (fun t => t.errcode == 5) = true ∧
    after (runCommand 0x00000104#32 (base 5 0 hello)) (fun t => t.errcode == 3) = true ∧
    decode 0x00000009#32 = .command .decrypt ∧
    after (runCommand 0x00000009#32 (keyed k4 8 0 helloShoutCipher)) (fun t => t.errcode == 2) = true := by decide

theorem witness_OnlyKeyCommandsWriteKeyState : isNext (exec .pad (base 5 0 hello)) = true ∧
    isNext (exec .keyload (base 5 0 hello)) = true ∧ isNext (exec .keyclr (base 5 0 hello)) = true := by decide

theorem witness_LenAndPadcntChangeOnlyOnSuccess : after (exec .pad (base 65 0 [])) (fun t => t.errcode != 0) = true ∧
    after (exec .nop (base 5 0 hello)) (fun t => t.errcode == 0) = true ∧
    after (exec .pad (base 5 0 hello)) (fun t => t.errcode == 0) = true ∧
    after (exec .unpad (base 1 0 [1])) (fun t => t.errcode == 0) = true := by decide

theorem witness_WorkingRegistersDoNotMatter : isNext (exec .encbuf (keyed k8 16 0 twoBlocks)) = true := by decide

/-- UNPAD on two buffers that differ at LEN. -/
theorem witness_BytesBeyondLenAreNotRead : ∃ (s t : State) (m : Memory), m.cap = s.buf.cap ∧ Config.capOk s.buf.cap = true ∧
    (∀ a, a < s.len.toNat → m.read a = s.buf.read a) ∧ m.read 1 ≠ s.buf.read 1 ∧ exec .unpad s = .next t :=
  ⟨base 1 0 [1, 2], got _, ⟨64, 0, [(0, 1), (1, 3)]⟩, by decide, by decide, by decide, by decide, next_of _ (by decide)⟩

theorem witness_EncryptionIsThirtyTwoRounds : ∃ f : Nat → Word × Word × Word, f 0 = (1, 2, 0) ∧
    ∀ r, f (r + 1) = encRoundSpec k8 (f r) :=
  ⟨fun n => Nat.rec (1, 2, 0) (fun _ v => encRoundSpec k8 v) n, rfl, fun _ => rfl⟩

theorem witness_DecryptionIsThirtyTwoRounds : ∃ f : Nat → Word × Word × Word, f 0 = (1, 2, 0xC6EF3720#32) ∧
    ∀ r, f (r + 1) = decRoundSpec k8 (f r) :=
  ⟨fun n => Nat.rec (1, 2, 0xC6EF3720#32) (fun _ v => decRoundSpec k8 v) n, rfl, fun _ => rfl⟩

/-- The last block, the first one outside, and no key. -/
theorem witness_EncblkEncryptsOneBlockInPlace : (8 : Nat) < 2 ^ 24 ∧ (base 0 0 []).keyvalid = false ∧
    (keyed k8 0 0 []).keyvalid = true ∧ 8 * 7 + 8 ≤ (keyed k8 0 0 []).buf.cap ∧ (keyed k8 0 0 []).buf.cap < 8 * 8 + 8 := by decide

theorem witness_DecblkDecryptsOneBlockInPlace : ∃ s t u v : State,
    exec (.encblk 7) s = .next t ∧ t.errcode = 0 ∧ exec (.decblk 7) t = .next u ∧
    exec (.decblk 7) s = .next v ∧ v.errcode = 0 ∧ isNext (exec (.encblk 7) v) = true :=
  ⟨keyed k8 0 56 abcdefgh, got _, got _, got _, next_of _ (by decide), by decide, next_of _ (by decide), next_of _ (by decide),
    by decide, by decide⟩

/-- SLEN at 0, at 16, and the secret `"abc"` under a stale fourth byte. -/
theorem witness_KeyloadLoadsTheMaskedSecret : (staged k8 0).slen = 0 ∧ 16 ≤ (staged k8 16).slen.toNat ∧
    [0x61#8, 0x62, 0x63].length = (staged ⟨0xFF636261, 0, 0, 0⟩ 3).slen.toNat ∧
    (∀ i, i < 3 → secByte (staged ⟨0xFF636261, 0, 0, 0⟩ 3).sec i = [0x61#8, 0x62, 0x63].getD i 0) := by decide

theorem witness_KeyclrForgetsTheKey : ∃ s t u : State, exec .keyclr s = .next t ∧ Instr.needsKey .encrypt = true ∧
    exec .encrypt t = .next u :=
  ⟨keyed k8 5 0 hello, got _, got _, next_of _ (by decide), rfl, next_of _ (by decide)⟩

/-- A step without a key whose transaction is a CMD write, of ENCRYPT. -/
theorem witness_KeyclrForgetsTheKey_step : ∃ s t : State, s.keyvalid = false ∧ s.k = ⟨0, 0, 0, 0⟩ ∧ step s = .next t ∧
    s.script = .regWrite 0 0x00000008#32 :: [] ∧ decode 0x00000008#32 ≠ .command .keyload :=
  ⟨withScript (base 5 0 hello) [.regWrite 0 8], got _, by decide, by decide, next_of _ (by decide), by decide, by decide⟩

/-- KEYCLR with a key loaded, then PAD and ENCRYPT: a run of three steps. -/
theorem witness_KeyclrForgetsTheKey_run : ∃ (s u : State) (rest : List HostEvent), s.keyvalid = true ∧
    s.script = .regWrite 0 0x0000000A#32 :: rest ∧ rest = [.regWrite 0 0x00000004#32, .regWrite 0 0x00000008#32] ∧
    (∀ w : Word, HostEvent.regWrite 0 w ∈ rest → decode w ≠ .command .keyload) ∧
    Host.Core.run Sys2Proof.core (2 + 1) s = .next u := by
  refine ⟨withScript (keyed k8 5 0 hello) [.regWrite 0 10, .regWrite 0 4, .regWrite 0 8], got _, [.regWrite 0 4, .regWrite 0 8],
    by decide, by decide, rfl, fun w hw => ?_, next_of _ (by decide)⟩
  simp only [List.mem_cons, HostEvent.regWrite.injEq, true_and, List.not_mem_nil, or_false] at hw
  obtain rfl | rfl := hw <;> decide

theorem witness_SetkeyScriptLoadsTheDerivedKey : [0x61#8, 0x62, 0x63].length < 2 ^ 32 ∧
    (withScript (base 0 0 []) (Script.setkey [0x61, 0x62, 0x63])).script = Script.setkey [0x61, 0x62, 0x63] := by decide

theorem witness_LoadScriptPlacesTheData : hello.length ≤ (base 0 0 []).buf.cap ∧
    (withScript (base 0 0 []) (Script.load hello)).script = Script.load hello := by decide

/-- LEN above the capacity, the full block that overflows, the largest unaligned LEN that fits. -/
theorem witness_PadAppendsThePadding : (base 65 0 []).buf.cap < (base 65 0 []).len.toNat ∧
    64 < 64 + computePadding 64 true ∧ 63 + computePadding 63 false ≤ 64 ∧ Config.capOk 64 = true := by decide

theorem witness_UnpadValidatesAndRemoves : (base 65 0 []).buf.cap < (base 65 0 []).len.toNat ∧
    (base 1 0 [1]).len.toNat ≤ (base 1 0 [1]).buf.cap ∧ stripPadding (byteAt (base 1 0 [1])) 1 = some 1 ∧
    stripPadding (byteAt (base 1 0 [0])) 1 = none := by decide

theorem witness_PadThenUnpadRestoresTheBuffer : ∃ s t u : State, Config.capOk s.buf.cap = true ∧
    1 ≤ computePadding s.len.toNat s.padfull ∧ s.len.toNat + computePadding s.len.toNat s.padfull ≤ s.buf.cap ∧
    exec .pad s = .next t ∧ exec .unpad t = .next u :=
  ⟨base 63 0 [], got _, got _, by decide, by decide, by decide, next_of _ (by decide), next_of _ (by decide)⟩

/-- No key; LEN above the capacity; LEN not a multiple; LEN at the capacity. -/
theorem witness_EncbufEncryptsEveryBlock : (base 0 0 []).keyvalid = false ∧ (keyed k8 65 0 []).keyvalid = true ∧
    (keyed k8 65 0 []).buf.cap < (keyed k8 65 0 []).len.toNat ∧ (keyed k8 63 0 []).len.toNat % 8 ≠ 0 ∧
    (keyed k8 64 0 []).len.toNat ≤ (keyed k8 64 0 []).buf.cap ∧ (keyed k8 64 0 []).len.toNat % 8 = 0 := by decide

theorem witness_DecbufDecryptsEveryBlock : (base 0 0 []).keyvalid = false ∧ (keyed k4 65 0 []).keyvalid = true ∧
    (keyed k4 65 0 []).buf.cap < (keyed k4 65 0 []).len.toNat ∧ (keyed k4 57 0 []).len.toNat % 8 ≠ 0 ∧
    (keyed k4 64 0 []).len.toNat ≤ (keyed k4 64 0 []).buf.cap ∧ (keyed k4 64 0 []).len.toNat % 8 = 0 := by decide

/-- Two equal blocks; and two buffers that differ in block 1 only. -/
theorem witness_StreamBlocksAreIndependent :
    (∃ s t : State, exec .encbuf s = .next t ∧ t.errcode = 0 ∧ 8 * 0 + 8 ≤ s.len.toNat ∧ 8 * 1 + 8 ≤ s.len.toNat ∧
      ∀ x, x < 8 → byteAt s (8 * 0 + x) = byteAt s (8 * 1 + x)) ∧
    ∃ s s' t t' : State, s'.k = s.k ∧ s'.len = s.len ∧ exec .encbuf s = .next t ∧ t.errcode = 0 ∧
      exec .encbuf s' = .next t' ∧ t'.errcode = 0 ∧ (∀ a, a / 8 ≠ 1 → byteAt s' a = byteAt s a) ∧
      byteAt s' (8 * 1 + 7) ≠ byteAt s (8 * 1 + 7) := by
  refine ⟨⟨keyed k8 16 0 (abcdefgh ++ abcdefgh), got _, next_of _ (by decide), by decide, by decide, by decide, by decide⟩,
    ⟨keyed k8 16 15 [1], keyed k8 16 15 [2], got _, got _, by decide, by decide, next_of _ (by decide), by decide,
      next_of _ (by decide), by decide, fun a ha => ?_, by decide⟩⟩
  have h : a ≠ 15 := by omega
  simp [byteAt, Memory.read, keyed, base, cellsAt, cellGet, h]

theorem witness_BlockOrderIsNotObservable : [1, 0, 2].Perm (List.range 3) := by decide

theorem witness_StreamDirectionsAreInverse : ∃ s t u v : State, s.keyvalid = true ∧ s.len.toNat ≤ s.buf.cap ∧
    s.len.toNat % 8 = 0 ∧ exec .encbuf s = .next t ∧ exec .decbuf t = .next u ∧ exec .decbuf s = .next v ∧
    isNext (exec .encbuf v) = true :=
  ⟨keyed k8 16 0 twoBlocks, got _, got _, got _, by decide, by decide, by decide, next_of _ (by decide), next_of _ (by decide),
    next_of _ (by decide), by decide⟩

/-- The second block of V-S1 as a chunk of its own, in both directions. -/
theorem witness_ChunkedStreamEqualsTheWhole : ∃ (s u s' u' s'' u'' : State) (o : Nat), u.k = s.k ∧ o + u.len.toNat ≤ s.len.toNat ∧
    o % 8 = 0 ∧ (∀ a, a < u.len.toNat → byteAt u a = byteAt s (o + a)) ∧ exec .encbuf s = .next s' ∧ s'.errcode = 0 ∧
    exec .encbuf u = .next u' ∧ u'.errcode = 0 ∧ exec .decbuf s = .next s'' ∧ s''.errcode = 0 ∧ exec .decbuf u = .next u'' ∧
    u''.errcode = 0 :=
  ⟨keyed k8 16 0 twoBlocks, keyed k8 8 0 zeros, got _, got _, got _, got _, 8, by decide, by decide, by decide, by decide,
    next_of _ (by decide), by decide, next_of _ (by decide), by decide, next_of _ (by decide), by decide, next_of _ (by decide),
    by decide⟩

theorem witness_EncryptPadsAndEncrypts : Config.capOk (base 0 0 []).buf.cap = true ∧ (base 0 0 []).keyvalid = false ∧
    (keyed k8 65 0 []).keyvalid = true ∧ (keyed k8 65 0 []).buf.cap < (keyed k8 65 0 []).len.toNat ∧
    (64 : Nat) < 64 + computePadding 64 true ∧ 64 + computePadding 64 false ≤ 64 := by decide

/-- No key; LEN = 65; LEN = 0; LEN = 63; LEN = 8 with padding that is invalid, and valid (V-E4, V-E1). -/
theorem witness_DecryptChecksDecryptsAndStrips : (base 0 0 []).keyvalid = false ∧ (keyed k4 65 0 []).keyvalid = true ∧
    (keyed k4 65 0 []).buf.cap < (keyed k4 65 0 []).len.toNat ∧ (keyed k4 0 0 []).len.toNat = 0 ∧
    (keyed k4 63 0 []).len.toNat % 8 ≠ 0 ∧ (keyed k4 8 0 []).len.toNat ≠ 0 ∧ (keyed k4 8 0 []).len.toNat % 8 = 0 ∧
    stripPadding (streamByte .decrypt k4 (byteAt (keyed k4 8 0 helloShoutCipher))) 8 = none ∧
    stripPadding (streamByte .decrypt kAbc (byteAt (keyed kAbc 8 0 helloCipher))) 8 = some 3 := by decide

theorem witness_NopReportsSuccess : (keyed k8 0 0 []).keyvalid = true ∧ (base 0 0 []).keyvalid = false := by decide

/-- With a key, PAD that succeeds and PAD that fails; no key; the three lengths of DECRYPT. -/
theorem witness_PipelinesComposeTheirParts : Config.capOk 64 = true ∧
    after (exec .pad (keyed kAbc 5 0 hello)) (fun u => u.errcode == 0) = true ∧
    after (exec .pad (keyed kAbc 65 0 hello)) (fun u => u.errcode != 0) = true ∧
    (base 5 0 hello).keyvalid = false ∧ isNext (exec .pad (base 5 0 hello)) = true ∧
    isNext (exec .decbuf (keyed kAbc 8 0 helloCipher)) = true ∧
    isNext (exec .decbuf (keyed kAbc 0 0 [])) = true ∧ isNext (exec .unpad (got (exec .decbuf (keyed kAbc 0 0 [])))) = true ∧
    (keyed kAbc 12 0 []).len.toNat % 8 ≠ 0 := by decide

/-- A length that is no multiple of 8, PADFULL = 1 at one that is, and PADFULL = 0 at one that is. -/
theorem witness_EncryptThenDecryptRoundTrip : ∀ s ∈ [keyed kAbc 5 0 hello, withPadfull (keyed k4 8 0 helloShout),
      keyed k4 8 0 helloShout], Config.capOk s.buf.cap = true ∧ s.keyvalid = true ∧
    s.len.toNat + computePadding s.len.toNat s.padfull ≤ s.buf.cap ∧ isNext (exec .encrypt s) = true ∧
    isNext (exec .decrypt { got (exec .encrypt s) with padfull := !s.padfull }) = true := by decide

theorem witness_CiphertextLength : ∀ s ∈ [keyed kAbc 5 0 hello, withPadfull (keyed k4 8 0 helloShout), keyed k4 8 0 helloShout],
    Config.capOk s.buf.cap = true ∧ after (exec .encrypt s) (fun t => t.errcode == 0) = true := by decide

/-- The four cases of the table: the empty buffer, last byte above 8 (V-E4), last bytes `01 02` (V-E6),
last byte `01` (V-E7). -/
theorem witness_PaddingBoundaryHazard : ∀ s ∈ [keyed k4 0 0 [], keyed k4 8 0 helloShout,
      keyed k4 8 0 [0x41, 0x42, 0x43, 0x44, 0x45, 0x46, 1, 2], keyed k4 8 0 [0x41, 0x42, 0x43, 0x44, 0x45, 0x46, 0x47, 1]],
    Config.capOk s.buf.cap = true ∧ s.keyvalid = true ∧ s.padfull = false ∧ s.len.toNat ≤ s.buf.cap ∧ s.len.toNat % 8 = 0 ∧
    isNext (exec .encrypt s) = true ∧ isNext (exec .decrypt (got (exec .encrypt s))) = true := by decide

end Sys2Proof.Tests
end

section
/-!
PROOFS. The statements about the state: the register map, the invariant of the machine, what each
command may write, and which parts of the state no command or no transaction reads.
-/

namespace Sys2Proof.Machine

variable {s t : State}

/-! ## The invariant of the machine -/

namespace State.Inv

theorem setErrcode (h : s.Inv) {c : BitVec 8} (hc : c.toNat ≤ 6) : (setErrcode c s).Inv :=
  { h with errcodeKnown := hc }

theorem setLen (h : s.Inv) (v : Word) : (setLen v s).Inv := { h with }

theorem setPadcnt (h : s.Inv) {p : Nat} (hp : p ≤ 8) : (setPadcnt (BitVec.ofNat 32 p) s).Inv :=
  { h with padcntBound := by rw [setPadcnt_padcnt, BitVec.toNat_ofNat]; exact (Nat.mod_le _ _).trans hp }

theorem storeByte (h : s.Inv) {a : Nat} (ha : a < s.buf.cap) (b : Byte) : (storeByte a b s).Inv :=
  { h with bufWf := wf_storeByte h.bufWf ha b }

theorem applyPadding (h : s.Inv) {p : Nat} (hp : s.len.toNat + p ≤ s.buf.cap) : (applyPadding p s).Inv where
  bufWf := wf_applyPadding h.bufWf hp
  errcodeKnown := by simpa using h.errcodeKnown
  padcntBound := by simpa using h.padcntBound
  noKeyIsZero := by simpa using h.noKeyIsZero
  drawUsed := by simpa [Machine.applyPadding] using h.drawUsed

theorem cipherBlock (h : s.Inv) (d : Direction) {a : Nat} (ha : a + 8 ≤ s.buf.cap) : (cipherBlock d a s).Inv where
  bufWf := wf_cipherBlock h.bufWf d ha
  errcodeKnown := by simpa using h.errcodeKnown
  padcntBound := by simpa using h.padcntBound
  noKeyIsZero := by simpa using h.noKeyIsZero
  drawUsed := by simpa using h.drawUsed

theorem transformBlocks (h : s.Inv) (d : Direction) {n : Nat} (hn : 8 * n ≤ s.buf.cap) :
    (transformBlocks d n s).Inv where
  bufWf := wf_transformBlocks h.bufWf d hn
  errcodeKnown := by simpa using h.errcodeKnown
  padcntBound := by simpa using h.padcntBound
  noKeyIsZero := by simpa using h.noKeyIsZero
  drawUsed := by simpa using h.drawUsed

theorem setScript (h : s.Inv) (es : List HostEvent) : State.Inv { s with script := es } := { h with }

/-- Key words may stand in K only with KEYVALID set (10_state.md R30). -/
theorem setKey (h : s.Inv) {k : Words4} {valid : Bool} (hk : valid = false → k = Words4.zero) (sec : Words4)
    (slen : Word) : State.Inv { s with k := k, keyvalid := valid, sec := sec, slen := slen } :=
  { h with noKeyIsZero := hk }

theorem reply (h : s.Inv) (r : HostReply) : (reply r s).Inv := { h with }

theorem forgetWork (h : s.Inv) : (forgetWork s).Inv :=
  { h with drawUsed := Nat.lt_succ_of_lt h.drawUsed }

/-- A reset keeps the capacity and draws BUF at an index that is used from then on (70_reset_and_hazards.md
R180, R181). -/
theorem resetEngine (h : s.Inv) : (resetEngine s).Inv where
  bufWf := wf_empty ((wf_iff _).1 h.bufWf).1 _
  errcodeKnown := Nat.zero_le _
  padcntBound := Nat.zero_le _
  noKeyIsZero _ := rfl
  drawUsed := Nat.lt_succ_self _

end State.Inv

/-- The padding count is at most a block (42_padding_codec.md R110). -/
theorem computePadding_le (len : Nat) (padfull : Bool) : computePadding len padfull ≤ 8 := by
  rw [computePadding_eq]
  split_ifs <;> omega

/-- The length after the padding, stored modulo 2^32, is no more than the sum (log entry 5). -/
theorem applyPadding_len_le (p : Nat) (s : State) : (applyPadding p s).len.toNat ≤ s.len.toNat + p := by
  rw [applyPadding, setLen_len, BitVec.toNat_ofNat]
  exact Nat.mod_le _ _

@[simp] theorem applyPadding_cap (p : Nat) (s : State) : (applyPadding p s).buf.cap = s.buf.cap := by
  simp [applyPadding]

/-- The blocks of the padded buffer lie inside the padded length. -/
theorem blockCount_applyPadding_le (p : Nat) (s : State) :
    8 * blockCount (applyPadding p s) ≤ s.len.toNat + p := by
  have h := applyPadding_len_le p s
  rw [blockCount_eq]
  omega

theorem removePadding_keeps_inv (hs : s.Inv) (h : removePadding s = .next t) : t.Inv := by
  rcases removePadding_cases h with ⟨-, rfl⟩ | ⟨p, hp, rfl⟩
  · exact hs.setErrcode (by decide)
  · exact ((hs.setLen _).setPadcnt (stripPadding_bounds hp).2.1).setErrcode (by decide)

theorem cryptBlockCommand_keeps_inv {d : Direction} {n : Nat} (hs : s.Inv)
    (h : cryptBlockCommand d n s = .next t) : t.Inv := by
  rcases cryptBlockCommand_cases h with ⟨-, rfl⟩ | ⟨-, -, rfl⟩ | ⟨-, hn, rfl⟩
  · exact hs.setErrcode (by decide)
  · exact hs.setErrcode (by decide)
  · exact (hs.cipherBlock d hn).setErrcode (by decide)

theorem cryptBufCommand_keeps_inv {d : Direction} (hs : s.Inv) (h : cryptBufCommand d s = .next t) : t.Inv := by
  rcases cryptBufCommand_cases h with ⟨-, rfl⟩ | ⟨-, -, rfl⟩ | ⟨-, -, -, rfl⟩ | ⟨-, hl, -, rfl⟩
  · exact hs.setErrcode (by decide)
  · exact hs.setErrcode (by decide)
  · exact hs.setErrcode (by decide)
  · exact (hs.transformBlocks d (by omega)).setErrcode (by decide)

theorem execKeyload_keeps_inv (hs : s.Inv) (h : execKeyload s = .next t) : t.Inv := by
  obtain rfl := succeed_eq_next.1 h
  exact (hs.setKey (valid := true) nofun s.sec s.slen).setErrcode (by decide)

theorem execKeyclr_keeps_inv (hs : s.Inv) (h : execKeyclr s = .next t) : t.Inv := by
  obtain rfl := succeed_eq_next.1 h
  exact (hs.setKey (fun _ => rfl) _ _).setErrcode (by decide)

theorem execPad_keeps_inv (hs : s.Inv) (h : execPad s = .next t) : t.Inv := by
  rcases execPad_cases h with ⟨-, rfl⟩ | ⟨hl, rfl⟩
  · exact hs.setErrcode (by decide)
  · exact ((hs.applyPadding hl).setPadcnt (computePadding_le _ _)).setErrcode (by decide)

theorem execUnpad_keeps_inv (hs : s.Inv) (h : execUnpad s = .next t) : t.Inv := by
  rcases execUnpad_cases h with ⟨-, rfl⟩ | ⟨-, hr⟩
  · exact hs.setErrcode (by decide)
  · exact removePadding_keeps_inv hs hr

theorem execEncrypt_keeps_inv (hs : s.Inv) (h : execEncrypt s = .next t) : t.Inv := by
  rcases execEncrypt_cases h with ⟨-, rfl⟩ | ⟨-, -, rfl⟩ | ⟨-, hl, rfl⟩
  · exact hs.setErrcode (by decide)
  · exact hs.setErrcode (by decide)
  · have hblocks := blockCount_applyPadding_le (computePadding s.len.toNat s.padfull) s
    exact (((hs.applyPadding hl).transformBlocks .encrypt (by rw [applyPadding_cap]; omega)).setPadcnt
      (computePadding_le _ _)).setErrcode (by decide)

theorem execDecrypt_keeps_inv (hs : s.Inv) (h : execDecrypt s = .next t) : t.Inv := by
  rcases execDecrypt_cases h with ⟨-, rfl⟩ | ⟨-, -, rfl⟩ | ⟨-, -, -, rfl⟩ | ⟨-, hl, -, -, hr⟩
  · exact hs.setErrcode (by decide)
  · exact hs.setErrcode (by decide)
  · exact hs.setErrcode (by decide)
  · exact removePadding_keeps_inv (hs.transformBlocks .decrypt (by omega)) hr

theorem exec_keeps_inv {i : Instr} (hs : s.Inv) (h : exec i s = .next t) : t.Inv := by
  cases i with
  | nop => obtain rfl := succeed_eq_next.1 h; exact hs.setErrcode (by decide)
  | keyload => exact execKeyload_keeps_inv hs h
  | encblk n => exact cryptBlockCommand_keeps_inv hs h
  | decblk n => exact cryptBlockCommand_keeps_inv hs h
  | pad => exact execPad_keeps_inv hs h
  | unpad => exact execUnpad_keeps_inv hs h
  | encbuf => exact cryptBufCommand_keeps_inv hs h
  | decbuf => exact cryptBufCommand_keeps_inv hs h
  | encrypt => exact execEncrypt_keeps_inv hs h
  | decrypt => exact execDecrypt_keeps_inv hs h
  | keyclr => exact execKeyclr_keeps_inv hs h

theorem runCommand_keeps_inv {w : Word} (hs : s.Inv) (h : runCommand w s = .next t) : t.Inv := by
  rcases runCommand_cases h with ⟨i, -, hi⟩ | ⟨why, -, rfl⟩
  · exact exec_keeps_inv hs hi
  · exact hs.setErrcode (by decide)

/-! ## The transactions -/

/-- A write to a register of the map runs a command, or changes at most PADFULL, LEN, SLEN and SEC
(10_state.md R16 to R24). -/
theorem writeReg_cases {r : Reg} {v : Word} (h : writeReg r v s = .next t) :
    (r = .cmd ∧ ∃ u, runCommand v s = .next u ∧ t = forgetWork u) ∨
    (r ≠ .cmd ∧ t = { s with padfull := t.padfull, len := t.len, slen := t.slen, sec := t.sec }) := by
  cases r with
  | cmd => exact .inl ⟨rfl, commandDone_eq_next h⟩
  | _ => cases h; exact .inr ⟨nofun, rfl⟩

/-- Everything a transaction can do when it is not refused (20_memory.md R41; 70_reset_and_hazards.md R180). -/
theorem accept_cases {e : HostEvent} (h : accept e s = .next t) :
    (∃ off v r, e = .regWrite off v ∧ regAt off = some r ∧ writeReg r v s = .next t) ∨
    (∃ off r, e = .regRead off ∧ regAt off = some r ∧ t = reply (.word (readReg r s)) s) ∨
    (∃ a b, e = .bufWrite a b ∧ a < s.buf.cap ∧ t = storeByte a b s) ∨
    (∃ a, e = .bufRead a ∧ a < s.buf.cap ∧ t = reply (.byte (byteAt s a)) s) ∨
    (e = .reset ∧ t = resetEngine s) := by
  cases e with
  | regWrite off v =>
    simp only [accept] at h
    split at h
    · next r hr => exact .inl ⟨off, v, r, rfl, hr, h⟩
    · cases h
  | regRead off =>
    simp only [accept] at h
    split at h
    · next r hr => cases h; exact .inr (.inl ⟨off, r, rfl, hr, rfl⟩)
    · cases h
  | bufWrite a b =>
    simp only [accept] at h
    split at h
    · next ha => cases h; exact .inr (.inr (.inl ⟨a, b, rfl, ha, rfl⟩))
    · cases h
  | bufRead a =>
    simp only [accept] at h
    split at h
    · next ha => cases h; exact .inr (.inr (.inr (.inl ⟨a, rfl, ha, rfl⟩)))
    · cases h
  | reset => cases h; exact .inr (.inr (.inr (.inr ⟨rfl, rfl⟩)))

theorem writeReg_keeps_inv {r : Reg} {v : Word} (hs : s.Inv) (h : writeReg r v s = .next t) : t.Inv := by
  rcases writeReg_cases h with ⟨-, u, hu, rfl⟩ | ⟨-, ht⟩
  · exact (runCommand_keeps_inv hs hu).forgetWork
  · rw [ht]; exact { hs with }

theorem accept_keeps_inv {e : HostEvent} (hs : s.Inv) (h : accept e s = .next t) : t.Inv := by
  rcases accept_cases h with ⟨off, v, r, -, -, hw⟩ | ⟨off, r, -, -, rfl⟩ | ⟨a, b, -, ha, rfl⟩ |
    ⟨a, -, -, rfl⟩ | ⟨-, rfl⟩
  · exact writeReg_keeps_inv hs hw
  · exact hs.reply _
  · exact hs.storeByte ha b
  · exact hs.reply _
  · exact hs.resetEngine

/-- Settles O16: the idle step changes nothing, and every transaction keeps the invariant. -/
theorem everyStepKeepsTheInvariant : Obligations.EveryStepKeepsTheInvariant := by
  intro s t hs h
  rcases step_cases h with ⟨-, rfl⟩ | ⟨e, rest, -, he⟩
  · exact hs
  · exact accept_keeps_inv (hs.setScript rest) he

/-- Settles O17: the capacity is one the spec allows, and every other part is a value of the reset state. -/
theorem resetStateMeetsTheInvariant : Obligations.ResetStateMeetsTheInvariant := fun _ =>
  { bufWf := wf_reset
    errcodeKnown := Nat.zero_le _
    padcntBound := Nat.zero_le _
    noKeyIsZero := fun _ => rfl
    drawUsed := Nat.zero_lt_one }

/-! ## What a command may write -/

/-- From `s` to `t` nothing changed but what a command on data may write: ERRCODE, LEN, PADCNT, the bytes of BUF
and the working registers (10_state.md R11, R12, R18, R23). -/
structure DataFrame (s t : State) : Prop where
  k : t.k = s.k
  keyvalid : t.keyvalid = s.keyvalid
  sec : t.sec = s.sec
  slen : t.slen = s.slen
  padfull : t.padfull = s.padfull
  script : t.script = s.script
  returned : t.returned = s.returned
  cap : t.buf.cap = s.buf.cap

namespace DataFrame

theorem setErrcode (c : BitVec 8) (h : DataFrame s t) : DataFrame s (setErrcode c t) := { h with }

theorem setPadcnt (v : Word) (h : DataFrame s t) : DataFrame s (setPadcnt v t) := { h with }

theorem setLen (v : Word) (h : DataFrame s t) : DataFrame s (setLen v t) := { h with }

theorem refl (s : State) : DataFrame s s := by constructor <;> rfl

theorem cipherBlock (d : Direction) (a : Nat) (s : State) : DataFrame s (cipherBlock d a s) := by
  constructor <;> simp

theorem transformBlocks (d : Direction) (n : Nat) (h : DataFrame s t) : DataFrame s (transformBlocks d n t) := by
  constructor <;> simp [h.k, h.keyvalid, h.sec, h.slen, h.padfull, h.script, h.returned, h.cap]

theorem applyPadding (p : Nat) (s : State) : DataFrame s (applyPadding p s) := by
  constructor <;> simp

theorem removePadding {u : State} (h : DataFrame s u) (hr : removePadding u = .next t) : DataFrame s t := by
  rcases removePadding_cases hr with ⟨-, rfl⟩ | ⟨p, -, rfl⟩
  · exact h.setErrcode _
  · exact ((h.setLen _).setPadcnt _).setErrcode _

theorem cryptBlockCommand {d : Direction} {n : Nat} (h : cryptBlockCommand d n s = .next t) : DataFrame s t := by
  rcases cryptBlockCommand_cases h with ⟨-, rfl⟩ | ⟨-, -, rfl⟩ | ⟨-, -, rfl⟩
  · exact (refl s).setErrcode _
  · exact (refl s).setErrcode _
  · exact (cipherBlock d _ s).setErrcode _

theorem cryptBufCommand {d : Direction} (h : cryptBufCommand d s = .next t) : DataFrame s t := by
  rcases cryptBufCommand_cases h with ⟨-, rfl⟩ | ⟨-, -, rfl⟩ | ⟨-, -, -, rfl⟩ | ⟨-, -, -, rfl⟩
  · exact (refl s).setErrcode _
  · exact (refl s).setErrcode _
  · exact (refl s).setErrcode _
  · exact ((refl s).transformBlocks d _).setErrcode _

theorem execPad (h : execPad s = .next t) : DataFrame s t := by
  rcases execPad_cases h with ⟨-, rfl⟩ | ⟨-, rfl⟩
  · exact (refl s).setErrcode _
  · exact ((applyPadding _ s).setPadcnt _).setErrcode _

theorem execUnpad (h : execUnpad s = .next t) : DataFrame s t := by
  rcases execUnpad_cases h with ⟨-, rfl⟩ | ⟨-, hr⟩
  · exact (refl s).setErrcode _
  · exact (refl s).removePadding hr

theorem execEncrypt (h : execEncrypt s = .next t) : DataFrame s t := by
  rcases execEncrypt_cases h with ⟨-, rfl⟩ | ⟨-, -, rfl⟩ | ⟨-, -, rfl⟩
  · exact (refl s).setErrcode _
  · exact (refl s).setErrcode _
  · exact (((applyPadding _ s).transformBlocks _ _).setPadcnt _).setErrcode _

theorem execDecrypt (h : execDecrypt s = .next t) : DataFrame s t := by
  rcases execDecrypt_cases h with ⟨-, rfl⟩ | ⟨-, -, rfl⟩ | ⟨-, -, -, rfl⟩ | ⟨-, -, -, -, hr⟩
  · exact (refl s).setErrcode _
  · exact (refl s).setErrcode _
  · exact (refl s).setErrcode _
  · exact ((refl s).transformBlocks _ _).removePadding hr

end DataFrame

/-- Every command but the two key commands writes data only. -/
theorem exec_dataFrame {i : Instr} (hload : i ≠ .keyload) (hclr : i ≠ .keyclr) (h : exec i s = .next t) :
    DataFrame s t := by
  cases i with
  | nop => obtain rfl := succeed_eq_next.1 h; exact (DataFrame.refl s).setErrcode _
  | keyload => exact absurd rfl hload
  | encblk n => exact .cryptBlockCommand h
  | decblk n => exact .cryptBlockCommand h
  | pad => exact .execPad h
  | unpad => exact .execUnpad h
  | encbuf => exact .cryptBufCommand h
  | decbuf => exact .cryptBufCommand h
  | encrypt => exact .execEncrypt h
  | decrypt => exact .execDecrypt h
  | keyclr => exact absurd rfl hclr

theorem exec_keyload_eq (s : State) : exec .keyload s =
    .next { s with k := keyOfBytes (stagedKeyByte s.sec s.slen), keyvalid := true, errcode := 0 } := (rfl)

theorem exec_keyclr_eq (s : State) : exec .keyclr s =
    .next { s with k := Words4.zero, sec := Words4.zero, slen := 0, keyvalid := false, errcode := 0 } := (rfl)

/-- Settles O22: the two key commands by their one answer each, every other command by its frame. -/
theorem onlyKeyCommandsWriteKeyState : Obligations.OnlyKeyCommandsWriteKeyState := by
  intro i s t h
  by_cases hload : i = .keyload
  · subst hload
    rw [exec_keyload_eq] at h
    cases h
    exact ⟨fun h => absurd rfl h, fun _ => ⟨rfl, rfl⟩, rfl, rfl, rfl, rfl⟩
  by_cases hclr : i = .keyclr
  · subst hclr
    rw [exec_keyclr_eq] at h
    cases h
    exact ⟨fun _ h => absurd rfl h, fun h => absurd rfl h, rfl, rfl, rfl, rfl⟩
  · have hf := exec_dataFrame hload hclr h
    exact ⟨fun _ _ => ⟨hf.k, hf.keyvalid⟩, fun _ => ⟨hf.sec, hf.slen⟩, hf.padfull, hf.script, hf.returned, hf.cap⟩

/-- No command takes a transaction of the host or returns it a value. -/
theorem exec_host {i : Instr} (h : exec i s = .next t) : t.script = s.script ∧ t.returned = s.returned := by
  obtain ⟨-, -, -, hscript, hreturned, -⟩ := onlyKeyCommandsWriteKeyState i s t h
  exact ⟨hscript, hreturned⟩

/-! ## LEN and PADCNT -/

/-- How a command may leave LEN and PADCNT: as they were; or grown and set by a success of PAD or ENCRYPT; or
shrunk and set by a success of UNPAD or DECRYPT (10_state.md R19, R20). -/
inductive LenUpdate (i : Instr) (s t : State) : Prop where
  | kept (hlen : t.len = s.len) (hpad : t.padcnt = s.padcnt)
      (hfail : i = .pad ∨ i = .encrypt ∨ i = .unpad ∨ i = .decrypt → t.errcode ≠ 0)
  | grown (hi : i = .pad ∨ i = .encrypt) (hok : t.errcode = 0) (hlen : t.len - t.padcnt = s.len)
  | shrunk (hi : i = .unpad ∨ i = .decrypt) (hok : t.errcode = 0) (hlen : t.len + t.padcnt = s.len)

theorem applyPadding_len (p : Nat) (s : State) : (applyPadding p s).len = s.len + BitVec.ofNat 32 p := by
  rw [applyPadding, setLen_len, BitVec.ofNat_add, bufLen, BitVec.ofNat_toNat, BitVec.setWidth_eq]

/-- A count that is removed comes back with the length that is left (42_padding_codec.md R113 (c)). -/
theorem ofNat_sub_add_ofNat {p : Nat} (v : Word) (hp : p ≤ v.toNat) :
    BitVec.ofNat 32 (v.toNat - p) + BitVec.ofNat 32 p = v := by
  rw [← BitVec.ofNat_add, Nat.sub_add_cancel hp, BitVec.ofNat_toNat, BitVec.setWidth_eq]

namespace LenUpdate

variable {i : Instr}

theorem failed {c : BitVec 8} (hc : c ≠ 0) : LenUpdate i s (setErrcode c s) :=
  .kept rfl rfl fun _ => hc

theorem removePadding (hi : i = .unpad ∨ i = .decrypt) {u : State} (hlen : u.len = s.len)
    (hpad : u.padcnt = s.padcnt) (h : removePadding u = .next t) : LenUpdate i s t := by
  rcases removePadding_cases h with ⟨-, rfl⟩ | ⟨p, hp, rfl⟩
  · exact .kept hlen hpad fun _ => by simp
  · exact .shrunk hi rfl ((ofNat_sub_add_ofNat u.len (stripPadding_bounds hp).2.2).trans hlen)

theorem cryptBlockCommand {d : Direction} {n : Nat} (hi : ¬(i = .pad ∨ i = .encrypt ∨ i = .unpad ∨ i = .decrypt))
    (h : cryptBlockCommand d n s = .next t) : LenUpdate i s t := by
  rcases cryptBlockCommand_cases h with ⟨-, rfl⟩ | ⟨-, -, rfl⟩ | ⟨-, -, rfl⟩
  · exact .failed (by decide)
  · exact .failed (by decide)
  · exact .kept (by simp) (by simp) fun h => absurd h hi

theorem cryptBufCommand {d : Direction} (hi : ¬(i = .pad ∨ i = .encrypt ∨ i = .unpad ∨ i = .decrypt))
    (h : cryptBufCommand d s = .next t) : LenUpdate i s t := by
  rcases cryptBufCommand_cases h with ⟨-, rfl⟩ | ⟨-, -, rfl⟩ | ⟨-, -, -, rfl⟩ | ⟨-, -, -, rfl⟩
  · exact .failed (by decide)
  · exact .failed (by decide)
  · exact .failed (by decide)
  · exact .kept (by simp) (by simp) fun h => absurd h hi

theorem execPad (h : execPad s = .next t) : LenUpdate .pad s t := by
  rcases execPad_cases h with ⟨-, rfl⟩ | ⟨-, rfl⟩
  · exact .failed (by decide)
  · exact .grown (.inl rfl) rfl (by simp [applyPadding_len])

theorem execUnpad (h : execUnpad s = .next t) : LenUpdate .unpad s t := by
  rcases execUnpad_cases h with ⟨-, rfl⟩ | ⟨-, hr⟩
  · exact .failed (by decide)
  · exact removePadding (.inl rfl) rfl rfl hr

theorem execEncrypt (h : execEncrypt s = .next t) : LenUpdate .encrypt s t := by
  rcases execEncrypt_cases h with ⟨-, rfl⟩ | ⟨-, -, rfl⟩ | ⟨-, -, rfl⟩
  · exact .failed (by decide)
  · exact .failed (by decide)
  · exact .grown (.inr rfl) rfl (by simp [applyPadding_len])

theorem execDecrypt (h : execDecrypt s = .next t) : LenUpdate .decrypt s t := by
  rcases execDecrypt_cases h with ⟨-, rfl⟩ | ⟨-, -, rfl⟩ | ⟨-, -, -, rfl⟩ | ⟨-, -, -, -, hr⟩
  · exact .failed (by decide)
  · exact .failed (by decide)
  · exact .failed (by decide)
  · exact removePadding (.inr rfl) (transformBlocks_len _ _ _) (transformBlocks_padcnt _ _ _) hr

end LenUpdate

theorem exec_lenUpdate {i : Instr} (h : exec i s = .next t) : LenUpdate i s t := by
  cases i with
  | nop => obtain rfl := succeed_eq_next.1 h; exact .kept rfl rfl (by simp)
  | keyload => rw [exec_keyload_eq] at h; cases h; exact .kept rfl rfl (by simp)
  | encblk n => exact .cryptBlockCommand (by simp) h
  | decblk n => exact .cryptBlockCommand (by simp) h
  | pad => exact .execPad h
  | unpad => exact .execUnpad h
  | encbuf => exact .cryptBufCommand (by simp) h
  | decbuf => exact .cryptBufCommand (by simp) h
  | encrypt => exact .execEncrypt h
  | decrypt => exact .execDecrypt h
  | keyclr => rw [exec_keyclr_eq] at h; cases h; exact .kept rfl rfl (by simp)

/-- Settles O23, from the three ways in which a command leaves LEN and PADCNT. -/
theorem lenAndPadcntChangeOnlyOnSuccess : Obligations.LenAndPadcntChangeOnlyOnSuccess := by
  intro i s t h
  rcases exec_lenUpdate h with ⟨hlen, hpad, hfail⟩ | ⟨hi, hok, hlen⟩ | ⟨hi, hok, hlen⟩
  · exact ⟨fun _ => ⟨hlen, hpad⟩, fun _ _ _ _ => ⟨hlen, hpad⟩, fun _ hok => absurd hok (hfail (by tauto)),
      fun _ hok => absurd hok (hfail (by tauto))⟩
  · have hother : ¬(i = .unpad ∨ i = .decrypt) := by rcases hi with rfl | rfl <;> simp
    exact ⟨fun hne => absurd hok hne, fun _ _ => by tauto, fun _ _ => hlen, fun hi' => absurd hi' hother⟩
  · have hother : ¬(i = .pad ∨ i = .encrypt) := by rcases hi with rfl | rfl <;> simp
    exact ⟨fun hne => absurd hok hne, fun _ _ => by tauto, fun hi' => absurd hi' hother, fun _ _ => hlen⟩

/-! ## Two states that a command cannot tell apart -/

/-- A relation on states, `R n` for agreement on the first `n` bytes of BUF, that every operation of the buffer
commands and the key commands keeps, and whose states look alike to all their checks. -/
structure Congruent (R : Nat → State → State → Prop) : Prop where
  keyvalid : ∀ {n s s'}, R n s s' → s'.keyvalid = s.keyvalid
  padfull : ∀ {n s s'}, R n s s' → s'.padfull = s.padfull
  len : ∀ {n s s'}, R n s s' → s'.len = s.len
  slen : ∀ {n s s'}, R n s s' → s'.slen = s.slen
  sec : ∀ {n s s'}, R n s s' → s'.sec = s.sec
  cap : ∀ {n s s'}, R n s s' → s'.buf.cap = s.buf.cap
  byte : ∀ {n s s'}, R n s s' → ∀ a, a < n → byteAt s' a = byteAt s a
  setErrcode : ∀ {n s s'} c, R n s s' → R n (setErrcode c s) (setErrcode c s')
  setLen : ∀ {n s s'} v, R n s s' → R n (setLen v s) (setLen v s')
  setPadcnt : ∀ {n s s'} v, R n s s' → R n (setPadcnt v s) (setPadcnt v s')
  setKey : ∀ {n s s'} k b, R n s s' → R n { s with k := k, keyvalid := b } { s' with k := k, keyvalid := b }
  setStaged : ∀ {n s s'} sec slen, R n s s' →
    R n { s with sec := sec, slen := slen } { s' with sec := sec, slen := slen }
  storeByte : ∀ {n s s'} v, R n s s' → R (n + 1) (storeByte n v s) (storeByte n v s')
  cipherBlock : ∀ {n s s'} d a, a + 8 ≤ n → R n s s' → R n (cipherBlock d a s) (cipherBlock d a s')

/-- Both answers are next states, related on the first `n` bytes and on all bytes below the new LEN. -/
def AnswersRelated (R : Nat → State → State → Prop) (n : Nat) (x x' : Answer) : Prop :=
  ∃ t t' m, x = .next t ∧ x' = .next t' ∧ n ≤ m ∧ t.len.toNat ≤ m ∧ R m t t'

theorem AnswersRelated.mono {R : Nat → State → State → Prop} {n k : Nat} {x x' : Answer} (hnk : n ≤ k)
    (h : AnswersRelated R k x x') : AnswersRelated R n x x' := by
  obtain ⟨t, t', m, ht, ht', hk, hm⟩ := h
  exact ⟨t, t', m, ht, ht', hnk.trans hk, hm⟩

/-- The count that is removed depends on the bytes below the length only (42_padding_codec.md R113). -/
theorem stripPadding_congr {b b' : Nat → Byte} {len : Nat} (h : ∀ a, a < len → b' a = b a) :
    stripPadding b' len = stripPadding b len := by
  by_cases hlen : len = 0
  · simp [stripPadding, hlen]
  · have htail : ∀ p v, tailUniform b' len p v = tailUniform b len p v := fun p v => by
      have hbyte : ∀ i, b' (len - (i + 1)) = b (len - (i + 1)) := fun i => h _ (by omega)
      simp only [tailUniform, hbyte]
    simp only [stripPadding, h (len - 1) (by omega), htail]

namespace Congruent

variable {R : Nat → State → State → Prop} (hR : Congruent R) {n : Nat} {s' : State}
include hR

theorem lenOutOfRange (p : Nat) (h : R n s s') : lenOutOfRange p s' = lenOutOfRange p s := by
  rw [Machine.lenOutOfRange, Machine.lenOutOfRange, bufLen, bufLen, hR.len h, hR.cap h]

theorem lenNotBlockMultiple (h : R n s s') : lenNotBlockMultiple s' = lenNotBlockMultiple s := by
  rw [Machine.lenNotBlockMultiple, Machine.lenNotBlockMultiple, bufLen, bufLen, hR.len h]

theorem blockCount (h : R n s s') : blockCount s' = blockCount s := by
  rw [blockCount_eq, blockCount_eq, hR.len h]

theorem storeFill (v : Byte) (p : Nat) (h : R n s s') : R (n + p) (storeFill n v p s) (storeFill n v p s') := by
  induction p with
  | zero => exact h
  | succ p ih => exact hR.storeByte v ih

theorem transformBlocks (d : Direction) {m : Nat} (hm : 8 * m ≤ n) (h : R n s s') :
    R n (transformBlocks d m s) (transformBlocks d m s') := by
  induction m with
  | zero => exact h
  | succ m ih => exact hR.cipherBlock d _ (by rw [blockAddr_eq]; omega) (ih (by omega))

theorem applyPadding (p : Nat) (h : R s.len.toNat s s') :
    R (s.len.toNat + p) (applyPadding p s) (applyPadding p s') := by
  rw [Machine.applyPadding, Machine.applyPadding, bufLen, bufLen, hR.len h]
  exact hR.setLen _ (hR.storeFill _ p h)

theorem succeed (hn : s.len.toNat ≤ n) (h : R n s s') : AnswersRelated R n (succeed s) (succeed s') :=
  ⟨_, _, n, rfl, rfl, le_rfl, hn, hR.setErrcode _ h⟩

theorem raise (e : ResultCode) (hn : s.len.toNat ≤ n) (h : R n s s') :
    AnswersRelated R n (raise e s) (raise e s') :=
  ⟨_, _, n, rfl, rfl, le_rfl, hn, hR.setErrcode _ h⟩

theorem removePadding (hn : s.len.toNat ≤ n) (h : R n s s') :
    AnswersRelated R n (removePadding s) (removePadding s') := by
  have hstrip : stripPadding (byteAt s') (bufLen s') = stripPadding (byteAt s) (bufLen s) := by
    rw [bufLen, hR.len h, stripPadding_congr fun a ha => hR.byte h a (by omega)]
  rw [Machine.removePadding, Machine.removePadding, hstrip, bufLen, bufLen, hR.len h]
  cases hp : stripPadding (byteAt s) s.len.toNat with
  | none => exact hR.raise _ hn h
  | some p =>
    refine hR.succeed ?_ (hR.setPadcnt _ (hR.setLen _ h))
    rw [setPadcnt_len, setLen_len, BitVec.toNat_ofNat]
    exact (Nat.mod_le _ _).trans (by omega)

theorem execPad (h : R s.len.toNat s s') : AnswersRelated R s.len.toNat (execPad s) (execPad s') := by
  simp only [Machine.execPad, hR.lenOutOfRange _ h, bufLen, hR.len h, hR.padfull h]
  split_ifs
  · exact hR.raise _ le_rfl h
  · exact hR.raise _ le_rfl h
  · exact .mono (Nat.le_add_right _ _)
      (hR.succeed (applyPadding_len_le _ s) (hR.setPadcnt _ (hR.applyPadding _ h)))

theorem execUnpad (h : R s.len.toNat s s') : AnswersRelated R s.len.toNat (execUnpad s) (execUnpad s') := by
  simp only [Machine.execUnpad, hR.lenOutOfRange _ h]
  split_ifs
  · exact hR.raise _ le_rfl h
  · exact hR.removePadding le_rfl h

theorem cryptBufCommand (d : Direction) (h : R s.len.toNat s s') :
    AnswersRelated R s.len.toNat (cryptBufCommand d s) (cryptBufCommand d s') := by
  simp only [Machine.cryptBufCommand, hR.lenOutOfRange _ h, hR.keyvalid h, hR.lenNotBlockMultiple h, hR.blockCount h]
  split_ifs
  · exact hR.raise _ le_rfl h
  · exact hR.raise _ le_rfl h
  · exact hR.raise _ le_rfl h
  · have hblocks : 8 * Machine.blockCount s ≤ s.len.toNat := by rw [blockCount_eq]; omega
    exact hR.succeed (by rw [transformBlocks_len]) (hR.transformBlocks d hblocks h)

theorem execEncrypt (h : R s.len.toNat s s') : AnswersRelated R s.len.toNat (execEncrypt s) (execEncrypt s') := by
  simp only [Machine.execEncrypt, hR.lenOutOfRange _ h, hR.keyvalid h, bufLen, hR.len h, hR.padfull h]
  split_ifs
  · exact hR.raise _ le_rfl h
  · exact hR.raise _ le_rfl h
  · exact hR.raise _ le_rfl h
  · have hpad := hR.applyPadding (computePadding s.len.toNat s.padfull) h
    rw [hR.blockCount hpad]
    refine .mono (Nat.le_add_right _ _) (hR.succeed ?_ (hR.setPadcnt _
      (hR.transformBlocks _ (blockCount_applyPadding_le _ s) hpad)))
    rw [setPadcnt_len, transformBlocks_len]
    exact applyPadding_len_le _ s

theorem execDecrypt (h : R s.len.toNat s s') : AnswersRelated R s.len.toNat (execDecrypt s) (execDecrypt s') := by
  simp only [Machine.execDecrypt, hR.lenOutOfRange _ h, hR.keyvalid h, bufLen, hR.len h, hR.lenNotBlockMultiple h,
    hR.blockCount h]
  split_ifs
  · exact hR.raise _ le_rfl h
  · exact hR.raise _ le_rfl h
  · exact hR.raise _ le_rfl h
  · have hblocks : 8 * Machine.blockCount s ≤ s.len.toNat := by rw [blockCount_eq]; omega
    exact hR.removePadding (by rw [transformBlocks_len]) (hR.transformBlocks _ hblocks h)

theorem execKeyload (h : R s.len.toNat s s') : AnswersRelated R s.len.toNat (execKeyload s) (execKeyload s') := by
  have hbytes : stagedKeyByte s'.sec s'.slen = stagedKeyByte s.sec s.slen := by rw [hR.sec h, hR.slen h]
  rw [Machine.execKeyload, Machine.execKeyload, hbytes]
  exact hR.succeed le_rfl (hR.setKey _ _ h)

/-- Every command but ENCBLK and DECBLK answers related states with related states. -/
theorem exec {i : Instr} (henc : ∀ n, i ≠ .encblk n) (hdec : ∀ n, i ≠ .decblk n) (h : R s.len.toNat s s') :
    AnswersRelated R s.len.toNat (exec i s) (exec i s') := by
  cases i with
  | nop => exact hR.succeed le_rfl h
  | keyload => exact hR.execKeyload h
  | encblk n => exact absurd rfl (henc n)
  | decblk n => exact absurd rfl (hdec n)
  | pad => exact hR.execPad h
  | unpad => exact hR.execUnpad h
  | encbuf => exact hR.cryptBufCommand _ h
  | decbuf => exact hR.cryptBufCommand _ h
  | encrypt => exact hR.execEncrypt h
  | decrypt => exact hR.execDecrypt h
  | keyclr => exact hR.succeed le_rfl (hR.setKey Words4.zero false (hR.setStaged Words4.zero 0 h))

end Congruent

/-! ## Bytes of BUF at LEN and above -/

/-- The two states differ at most in BUF, and there not in the bytes below `n`. -/
def SameBelow (n : Nat) (s s' : State) : Prop :=
  ∃ m, s' = setBuf m s ∧ m.cap = s.buf.cap ∧ ∀ a, a < n → m.read a = s.buf.read a

namespace SameBelow

variable {n : Nat} {s' : State}

theorem byte (h : SameBelow n s s') {a : Nat} (ha : a < n) : byteAt s' a = byteAt s a := by
  obtain ⟨m, rfl, -, hm⟩ := h
  exact hm a ha

theorem wordAt (h : SameBelow n s s') {a : Nat} (ha : a + 4 ≤ n) : wordAt s' a = wordAt s a := by
  rw [Machine.wordAt, Machine.wordAt, h.byte (by omega), h.byte (by omega), h.byte (by omega), h.byte (by omega)]

/-- A store of the same byte makes the two buffers agree at its address. -/
theorem storeByte (h : SameBelow n s s') (a : Nat) (v : Byte) :
    SameBelow n (storeByte a v s) (storeByte a v s') := by
  obtain ⟨m, rfl, hcap, hm⟩ := h
  exact ⟨m.write a v, rfl, hcap, fun x hx => by rw [storeByte_buf, read_write, read_write, hm x hx]⟩

theorem storeByte_succ (h : SameBelow n s s') (v : Byte) :
    SameBelow (n + 1) (Machine.storeByte n v s) (Machine.storeByte n v s') := by
  obtain ⟨m, rfl, hcap, hm⟩ := h
  refine ⟨m.write n v, rfl, hcap, fun x hx => ?_⟩
  rw [storeByte_buf, read_write, read_write]
  split_ifs
  · rfl
  · exact hm x (by omega)

theorem storeWord (h : SameBelow n s s') (a : Nat) (w : Word) :
    SameBelow n (storeWord a w s) (storeWord a w s') :=
  (((h.storeByte _ _).storeByte _ _).storeByte _ _).storeByte _ _

theorem setWork (h : SameBelow n s s') (w : Work) : SameBelow n (setWork w s) (setWork w s') := by
  obtain ⟨m, rfl, hm⟩ := h
  exact ⟨m, rfl, hm⟩

theorem cipherBlock (h : SameBelow n s s') (d : Direction) {a : Nat} (ha : a + 8 ≤ n) :
    SameBelow n (cipherBlock d a s) (cipherBlock d a s') := by
  have hk : s'.k = s.k := by obtain ⟨m, rfl, -⟩ := h; rfl
  rw [Machine.cipherBlock, Machine.cipherBlock, hk, h.wordAt (by omega), h.wordAt (by omega)]
  exact ((h.setWork _).storeWord _ _).storeWord _ _

theorem congruent : Congruent SameBelow where
  keyvalid := fun ⟨_, e, _⟩ => by rw [e, setBuf_keyvalid]
  padfull := fun ⟨_, e, _⟩ => by rw [e, setBuf_padfull]
  len := fun ⟨_, e, _⟩ => by rw [e, setBuf_len]
  slen := fun ⟨_, e, _⟩ => by rw [e, setBuf_slen]
  sec := fun ⟨_, e, _⟩ => by rw [e, setBuf_sec]
  cap := fun ⟨_, e, hcap, _⟩ => by rw [e, setBuf_buf, hcap]
  byte h _ ha := h.byte ha
  setErrcode _ := fun ⟨m, e, hm⟩ => ⟨m, by rw [e]; rfl, hm⟩
  setLen _ := fun ⟨m, e, hm⟩ => ⟨m, by rw [e]; rfl, hm⟩
  setPadcnt _ := fun ⟨m, e, hm⟩ => ⟨m, by rw [e]; rfl, hm⟩
  setKey _ _ := fun ⟨m, e, hm⟩ => ⟨m, by rw [e]; rfl, hm⟩
  setStaged _ _ := fun ⟨m, e, hm⟩ => ⟨m, by rw [e]; rfl, hm⟩
  storeByte v h := h.storeByte_succ v
  cipherBlock d _ ha h := h.cipherBlock d ha

end SameBelow

/-- Settles O25: the commands but ENCBLK and DECBLK keep the agreement of two states below LEN. -/
theorem bytesBeyondLenAreNotRead : Obligations.BytesBeyondLenAreNotRead := by
  intro i s t m henc hdec hcap _ hbytes h
  have hsame : SameBelow s.len.toNat s (setBuf m s) := ⟨m, rfl, hcap, hbytes⟩
  obtain ⟨u, t', n, hu, ht', hn, htn, hR⟩ := SameBelow.congruent.exec henc hdec hsame
  obtain rfl : u = t := by rw [h] at hu; cases hu; rfl
  refine ⟨t', ht', ?_, fun a ha => hR.byte (by omega)⟩
  obtain ⟨m', rfl, -⟩ := hR
  rfl

/-! ## The working registers -/

/-- The two states differ at most in the working registers; there is no agreement to count in bytes. -/
def SameButWork (_ : Nat) (s s' : State) : Prop := ∃ w, s' = setWork w s

theorem setWork_setWork (w w' : Work) (s : State) : setWork w (setWork w' s) = setWork w s := (rfl)

theorem setWork_self (s : State) : setWork s.work s = s := (rfl)

theorem wordAt_setWork (w : Work) (s : State) (a : Nat) : wordAt (setWork w s) a = wordAt s a := (rfl)

/-- The transform of a block loads all four working registers first (40_block_transform.md R82, R84). -/
theorem cipherBlock_setWork (d : Direction) (a : Nat) (w : Work) (s : State) :
    cipherBlock d a (setWork w s) = cipherBlock d a s := by
  rw [cipherBlock, cipherBlock, storeBlock, storeBlock, setWork_k, wordAt_setWork, wordAt_setWork, setWork_setWork]

theorem SameButWork.congruent : Congruent SameButWork where
  keyvalid := fun ⟨_, e⟩ => by rw [e, setWork_keyvalid]
  padfull := fun ⟨_, e⟩ => by rw [e, setWork_padfull]
  len := fun ⟨_, e⟩ => by rw [e, setWork_len]
  slen := fun ⟨_, e⟩ => by rw [e, setWork_slen]
  sec := fun ⟨_, e⟩ => by rw [e, setWork_sec]
  cap := fun ⟨_, e⟩ => by rw [e, setWork_buf]
  byte := fun ⟨_, e⟩ _ _ => by rw [e, byteAt_setWork]
  setErrcode _ := fun ⟨w, e⟩ => ⟨w, by rw [e]; rfl⟩
  setLen _ := fun ⟨w, e⟩ => ⟨w, by rw [e]; rfl⟩
  setPadcnt _ := fun ⟨w, e⟩ => ⟨w, by rw [e]; rfl⟩
  setKey _ _ := fun ⟨w, e⟩ => ⟨w, by rw [e]; rfl⟩
  setStaged _ _ := fun ⟨w, e⟩ => ⟨w, by rw [e]; rfl⟩
  storeByte _ := fun ⟨w, e⟩ => ⟨w, by rw [e]; rfl⟩
  cipherBlock {_ s _} d a _ := fun ⟨w, e⟩ =>
    ⟨(cipherBlock d a s).work, by rw [e, cipherBlock_setWork, setWork_self]⟩

/-- ENCBLK and DECBLK, which read their block wherever LEN is. -/
theorem cryptBlockCommand_setWork (d : Direction) (n : Nat) (w : Work) (s : State) :
    ∃ t w', cryptBlockCommand d n s = .next t ∧ cryptBlockCommand d n (setWork w s) = .next (setWork w' t) := by
  have hrange : blockOutOfRange n (setWork w s) = blockOutOfRange n s := (rfl)
  rw [cryptBlockCommand, cryptBlockCommand, setWork_keyvalid, hrange, cipherBlock_setWork]
  split_ifs
  · exact ⟨_, w, rfl, rfl⟩
  · exact ⟨_, w, rfl, rfl⟩
  · exact ⟨_, _, rfl, rfl⟩

/-- A command completes, and what the working registers held before it shows in nothing but themselves. -/
theorem exec_setWork (i : Instr) (w : Work) (s : State) :
    ∃ t w', exec i s = .next t ∧ exec i (setWork w s) = .next (setWork w' t) := by
  by_cases henc : ∃ n, i = .encblk n
  · obtain ⟨n, rfl⟩ := henc
    exact cryptBlockCommand_setWork .encrypt n w s
  by_cases hdec : ∃ n, i = .decblk n
  · obtain ⟨n, rfl⟩ := hdec
    exact cryptBlockCommand_setWork .decrypt n w s
  · rw [not_exists] at henc hdec
    obtain ⟨t, _, _, ht, ht', -, -, w', rfl⟩ := SameButWork.congruent.exec henc hdec ⟨w, rfl⟩
    exact ⟨t, w', ht, ht'⟩

theorem exec_completes (i : Instr) (s : State) : ∃ t, exec i s = .next t := by
  obtain ⟨t, _, ht, -⟩ := exec_setWork i s.work s
  exact ⟨t, ht⟩

/-- Settles O24: the two answers are equal up to the working registers. -/
theorem workingRegistersDoNotMatter : Obligations.WorkingRegistersDoNotMatter := by
  intro i s t w h
  obtain ⟨u, w', hu, hu'⟩ := exec_setWork i w s
  obtain rfl : u = t := by rw [h] at hu; cases hu; rfl
  exact ⟨_, hu', rfl⟩

/-! ## The register map -/

theorem flagWord_toNat (b : Bool) : (flagWord b).toNat = b.toNat := by
  cases b <;> rfl

/-- ERRCODE in bits 7:0 and KEYVALID in bit 8 (10_state.md R17). -/
theorem statusWord_toNat (s : State) : (statusWord s).toNat = s.errcode.toNat + 256 * s.keyvalid.toNat := by
  have herr : (s.errcode.setWidth 32).toNat = s.errcode.toNat := BitVec.toNat_setWidth_of_le (by decide)
  have hkey : (shl32 (flagWord s.keyvalid) 8).toNat = 2 ^ 8 * s.keyvalid.toNat := by
    have hle := s.keyvalid.toNat_le
    rw [shl32, BitVec.toNat_shiftLeft, flagWord_toNat, Nat.shiftLeft_eq]
    omega
  rw [statusWord, BitVec.toNat_or, herr, hkey, Nat.lor_comm,
    ← Nat.two_pow_add_eq_or_of_lt s.errcode.isLt, Nat.add_comm]

/-- The low four bits (10_state.md R20). -/
theorem padcntWord_toNat (s : State) : (padcntWord s).toNat = s.padcnt.toNat % 16 := by
  rw [padcntWord, BitVec.toNat_and]
  exact Nat.and_two_pow_sub_one_eq_mod _ 4

theorem readReg_cap_toNat (s : State) : (readReg .cap s).toNat = s.buf.cap % 2 ^ 32 :=
  BitVec.toNat_ofNat _ _

/-- Bit 0 of the value written (10_state.md R18). -/
theorem ctrlPadfull_eq (v : Word) : ctrlPadfull v = decide (v.toNat % 2 = 1) := by
  rw [ctrlPadfull, BitVec.getLsbD, Nat.testBit_zero]

theorem regAt_eq_some {off : Nat} {r : Reg} (h : regAt off = some r) : off = r.offset := by
  unfold regAt at h
  split at h <;> cases h <;> rfl

/-- Every aligned offset below 0x30 is the offset of a register (10_state.md R15). -/
theorem exists_reg_of_aligned {off : Nat} (ha : off % 4 = 0) (hlt : off < 0x30) : ∃ r : Reg, off = r.offset := by
  have hsome : ∀ off < 0x30, off % 4 = 0 → (regAt off).isSome = true := by decide
  obtain ⟨r, hr⟩ := Option.isSome_iff_exists.1 (hsome off hlt ha)
  exact ⟨r, regAt_eq_some hr⟩

theorem step_regRead {r : Reg} {rest : List HostEvent} (h : s.script = .regRead r.offset :: rest) :
    step s = .next { s with script := rest, returned := s.returned ++ [.word (readReg r s)] } := by
  rw [step_cons h, accept, regAt_offset]
  rfl

/-- Settles O8: the offset is that of a register of the map, and each register's value is the word of its rule. -/
theorem registerReadsFollowTheMap : Obligations.RegisterReadsFollowTheMap := by
  intro s off rest h ha hlt
  obtain ⟨r, rfl⟩ := exists_reg_of_aligned ha hlt
  refine ⟨readReg r s, step_regRead h, ?_⟩
  cases r <;> simp [Reg.offset, readReg, statusWord_toNat, ctrlWord, flagWord_toNat, padcntWord_toNat]

/-- Settles O9: the offset is that of a register of the map, and each register but CMD has its own write. -/
theorem registerWritesFollowTheMap : Obligations.RegisterWritesFollowTheMap := by
  intro s off v rest h ha hlt hcmd
  obtain ⟨r, rfl⟩ := exists_reg_of_aligned ha hlt
  rw [step_regWrite h]
  cases r with
  | cmd => exact absurd rfl hcmd
  | _ => exact ⟨_, rfl, by simp [Reg.offset, ctrlPadfull_eq, setLen]⟩

/-- Settles O7: the command completes and takes no transaction; the step adds the redraw. -/
theorem stepRunsTheDecodedCommand : Obligations.StepRunsTheDecodedCommand := by
  intro s w rest i h hw
  obtain ⟨t, ht⟩ := exec_completes i { s with script := rest }
  refine ⟨t, ht, (exec_host ht).1, ?_⟩
  rw [step_regWrite (r := .cmd) h, writeReg, runCommand, hw]
  simp only [ht, commandDone, forgetWork]

/-- Settles O13: the capacity fits the 32 bits of CAP, and the rest are values of the reset state. -/
theorem resetStateHasTheSpecsValues : Obligations.ResetStateHasTheSpecsValues := by
  have hcap : Config.BUFCAP % 2 ^ 32 = Config.BUFCAP := by
    have := (capOk_iff _).1 capOk_BUFCAP
    omega
  exact ⟨rfl, rfl, rfl, rfl, rfl, rfl, rfl, rfl, rfl, (readReg_cap_toNat _).trans hcap⟩

/-! ## The values returned to the host -/

/-- The values a transaction returns: one of a read inside the interface, else none (20_memory.md R41). -/
def replies (e : HostEvent) (s : State) : List HostReply :=
  match e with
  | .regRead off => ((regAt off).map fun r => HostReply.word (readReg r s)).toList
  | .bufRead a => [.byte (byteAt s a)]
  | .regWrite _ _ => []
  | .bufWrite _ _ => []
  | .reset => []

theorem runCommand_returned {w : Word} (h : runCommand w s = .next t) : t.returned = s.returned := by
  rcases runCommand_cases h with ⟨i, -, hi⟩ | ⟨why, -, rfl⟩
  · exact (exec_host hi).2
  · rfl

theorem accept_returned {e : HostEvent} (h : accept e s = .next t) : t.returned = s.returned ++ replies e s := by
  rcases accept_cases h with ⟨off, v, r, rfl, -, hw⟩ | ⟨off, r, rfl, hr, rfl⟩ | ⟨a, b, rfl, -, rfl⟩ |
    ⟨a, rfl, -, rfl⟩ | ⟨rfl, rfl⟩
  · rcases writeReg_cases hw with ⟨-, u, hu, rfl⟩ | ⟨-, ht⟩
    · simp [replies, runCommand_returned hu]
    · rw [ht]; simp [replies]
  · simp [replies, hr]
  · simp [replies]
  · simp [replies]
  · simp [replies, resetEngine]

/-- No register of the map reads as a part of K (10_state.md R11, R15). -/
theorem readReg_withKey (r : Reg) (s : State) (k : Words4) : readReg r { s with k := k } = readReg r s := by
  cases r <;> rfl

theorem replies_withKey (e : HostEvent) (s : State) (k : Words4) : replies e { s with k := k } = replies e s := by
  cases e with
  | regRead off => simp only [replies, readReg_withKey]
  | bufRead a => rfl
  | regWrite off v => rfl
  | bufWrite a b => rfl
  | reset => rfl

/-- Settles O14: a step returns the replies of its transaction, and they do not depend on K. -/
theorem keyRegistersAreUnreadable : Obligations.KeyRegistersAreUnreadable := by
  intro s t t' k' h h'
  rcases step_cases h with ⟨hs, rfl⟩ | ⟨e, rest, hs, he⟩
  · rw [step_nil (show State.script { t with k := k' } = [] from hs)] at h'
    cases h'
    rfl
  · rw [step_cons (show State.script { s with k := k' } = e :: rest from hs)] at h'
    rw [accept_returned he, accept_returned h']
    exact congrArg (s.returned ++ ·) (replies_withKey e { s with script := rest } k')

end Sys2Proof.Machine
end

section
/-!
PROOFS. The statements about memory and the host's access to it: words of BUF, the buffer transactions,
which transactions complete, and runs that keep to the interface.
-/

namespace Sys2Proof.Machine

variable {s t : State}

/-! ## Words of BUF -/

theorem byteAt_storeWord_inside (a : Nat) (w : Word) (s : State) {i : Nat} (hi : i < 4) :
    byteAt (storeWord a w s) (a + i) = byteOfWord w i := by
  rw [byteAt_storeWord, if_pos (by omega), Nat.add_sub_cancel_left]

theorem byteAt_storeWord_outside (a : Nat) (w : Word) (s : State) {x : Nat} (hx : x < a ∨ a + 4 ≤ x) :
    byteAt (storeWord a w s) x = byteAt s x := by
  rw [byteAt_storeWord, if_neg (by omega)]

/-- A word store reads back as the word stored, because packing undoes unpacking (20_memory.md R42, R43). -/
theorem wordAt_storeWord (a : Nat) (w : Word) (s : State) : wordAt (storeWord a w s) a = w := by
  have hbyte : ∀ i < 4, byteAt (storeWord a w s) (a + i) = byteOfWord w i :=
    fun _ => byteAt_storeWord_inside a w s
  have h0 : byteAt (storeWord a w s) a = byteOfWord w 0 := hbyte 0 (by decide)
  rw [wordAt, h0, hbyte 1 (by decide), hbyte 2 (by decide), hbyte 3 (by decide), wordOfBytes_bytes]

/-- Settles O15: the conversions in numbers, each undoing the other, and what a word store leaves at each byte. -/
theorem wordAccessesAreLittleEndian : Obligations.WordAccessesAreLittleEndian :=
  ⟨toNat_wordOfBytes, fun w i _ => toNat_byteOfWord w i, wordOfBytes_bytes,
    fun b0 b1 b2 b3 => ⟨byteOfWord_zero b0 b1 b2 b3, byteOfWord_one b0 b1 b2 b3,
      byteOfWord_two b0 b1 b2 b3, byteOfWord_three b0 b1 b2 b3⟩,
    fun s a w => ⟨wordAt_storeWord a w s, fun _ => byteAt_storeWord_inside a w s,
      fun _ => byteAt_storeWord_outside a w s⟩⟩

/-! ## The buffer transactions -/

theorem step_bufWrite {a : Nat} {b : Byte} {rest : List HostEvent} (h : s.script = .bufWrite a b :: rest)
    (ha : a < s.buf.cap) : step s = .next (storeByte a b { s with script := rest }) := by
  rw [step_cons h, accept, if_pos ha]

theorem step_bufRead {a : Nat} {rest : List HostEvent} (h : s.script = .bufRead a :: rest)
    (ha : a < s.buf.cap) : step s = .next (reply (.byte (byteAt s a)) { s with script := rest }) := by
  rw [step_cons h, accept, if_pos ha]
  rfl

/-- Settles O10: a BufWrite stores its byte and a BufRead replies with one. -/
theorem bufferTransactionsMoveOneByte : Obligations.BufferTransactionsMoveOneByte :=
  fun s a rest ha =>
    ⟨fun b h => ⟨_, step_bufWrite h ha, rfl, rfl, byteAt_storeByte a b { s with script := rest }⟩,
      fun h => step_bufRead h ha⟩

/-! ## Which transactions complete -/

/-- The map has a register at exactly the aligned offsets below 0x30 (10_state.md R15, R24). -/
theorem regAt_isSome (off : Nat) : (regAt off).isSome = (off % 4 == 0 && decide (off < 0x30)) := by
  rw [Bool.eq_iff_iff, Bool.and_eq_true, beq_iff_eq, decide_eq_true_iff]
  constructor
  · intro h
    obtain ⟨r, hr⟩ := Option.isSome_iff_exists.1 h
    rw [regAt_eq_some hr]
    cases r <;> decide
  · rintro ⟨ha, hlt⟩
    obtain ⟨r, rfl⟩ := exists_reg_of_aligned ha hlt
    rw [regAt_offset, Option.isSome_some]

theorem runCommand_completes (w : Word) (s : State) : ∃ t, runCommand w s = .next t := by
  unfold runCommand
  split
  · exact exec_completes _ s
  · exact ⟨_, rfl⟩

theorem writeReg_completes (r : Reg) (v : Word) (s : State) : ∃ t, writeReg r v s = .next t := by
  cases r with
  | cmd =>
    obtain ⟨t, ht⟩ := runCommand_completes v s
    exact ⟨forgetWork t, by rw [writeReg, ht, commandDone]⟩
  | _ => exact ⟨_, rfl⟩

/-- A transaction of the interface completes (20_memory.md R41). -/
theorem accept_completes {e : HostEvent} (h : HostEvent.inInterface s.buf.cap e = true) :
    ∃ t, accept e s = .next t := by
  cases e with
  | regWrite off v =>
    rw [HostEvent.inInterface, ← regAt_isSome] at h
    obtain ⟨r, hr⟩ := Option.isSome_iff_exists.1 h
    simp only [accept, hr, writeReg_completes]
  | regRead off =>
    rw [HostEvent.inInterface, ← regAt_isSome] at h
    obtain ⟨r, hr⟩ := Option.isSome_iff_exists.1 h
    exact ⟨reply (.word (readReg r s)) s, by rw [accept, hr]⟩
  | bufWrite a b => exact ⟨storeByte a b s, if_pos (of_decide_eq_true h)⟩
  | bufRead a => exact ⟨reply (.byte (byteAt s a)) s, if_pos (of_decide_eq_true h)⟩
  | reset => exact ⟨resetEngine s, rfl⟩

/-- A transaction outside the interface is refused (20_memory.md R50). -/
theorem accept_refused {e : HostEvent} (h : HostEvent.inInterface s.buf.cap e = false) :
    ∃ r, accept e s = .refused r := by
  cases e with
  | regWrite off v =>
    rw [HostEvent.inInterface, ← regAt_isSome, Option.isSome_eq_false_iff, Option.isNone_iff_eq_none] at h
    exact ⟨.registerAccess off, by rw [accept, h]⟩
  | regRead off =>
    rw [HostEvent.inInterface, ← regAt_isSome, Option.isSome_eq_false_iff, Option.isNone_iff_eq_none] at h
    exact ⟨.registerAccess off, by rw [accept, h]⟩
  | bufWrite a b => exact ⟨.bufferAccess a, if_neg (of_decide_eq_false h)⟩
  | bufRead a => exact ⟨.bufferAccess a, if_neg (of_decide_eq_false h)⟩
  | reset => cases h

/-! ## What no transaction changes -/

/-- No command takes a transaction of the host or changes the capacity. -/
theorem runCommand_script_cap {w : Word} (h : runCommand w s = .next t) :
    t.script = s.script ∧ t.buf.cap = s.buf.cap := by
  rcases runCommand_cases h with ⟨i, -, hi⟩ | ⟨why, -, rfl⟩
  · obtain ⟨-, -, -, hscript, -, hcap⟩ := onlyKeyCommandsWriteKeyState i s t hi
    exact ⟨hscript, hcap⟩
  · exact ⟨rfl, rfl⟩

/-- No transaction, reset among them, takes another one or changes the capacity (00_scope.md R6). -/
theorem accept_script_cap {e : HostEvent} (h : accept e s = .next t) :
    t.script = s.script ∧ t.buf.cap = s.buf.cap := by
  rcases accept_cases h with ⟨off, v, r, -, -, hw⟩ | ⟨off, r, -, -, rfl⟩ | ⟨a, b, -, -, rfl⟩ |
    ⟨a, -, -, rfl⟩ | ⟨-, rfl⟩
  · rcases writeReg_cases hw with ⟨-, u, hu, rfl⟩ | ⟨-, ht⟩
    · simpa using runCommand_script_cap hu
    · rw [ht]; exact ⟨rfl, rfl⟩
  · exact ⟨rfl, rfl⟩
  · exact ⟨rfl, rfl⟩
  · exact ⟨rfl, rfl⟩
  · exact ⟨rfl, rfl⟩

/-- A step on a transaction of the interface completes, with that transaction taken and the capacity kept. -/
theorem step_completes {e : HostEvent} {rest : List HostEvent} (h : s.script = e :: rest)
    (he : HostEvent.inInterface s.buf.cap e = true) :
    ∃ t, step s = .next t ∧ t.script = rest ∧ t.buf.cap = s.buf.cap := by
  obtain ⟨t, ht⟩ := accept_completes (s := { s with script := rest }) he
  exact ⟨t, (step_cons h).trans ht, accept_script_cap ht⟩

/-- Settles O11: inside the interface the step completes, outside it the engine refuses the transaction. -/
theorem exactlyOutsideTransactionsAreRefused : Obligations.ExactlyOutsideTransactionsAreRefused := by
  intro s e rest h
  constructor
  · intro he
    obtain ⟨t, ht, hscript, -⟩ := step_completes h he
    exact ⟨t, ht, hscript⟩
  · intro he
    rw [step_cons h]
    exact accept_refused he

/-! ## Safe runs -/

/-- Safety passes to a state with no new transaction and the same capacity. -/
theorem State.Safe.of_subset (hs : s.Safe) (hscript : t.script ⊆ s.script) (hcap : t.buf.cap = s.buf.cap) :
    t.Safe := fun e he => by
  rw [hcap]
  exact hs e (hscript he)

/-- Settles O18: the next transaction, if there is one, is of the interface, and what is left of them is too. -/
theorem safeRunsNeverStop : Obligations.SafeRunsNeverStop := by
  refine ⟨fun s hs => ?_, fun s => step_nil⟩
  cases hscript : s.script with
  | nil => exact ⟨s, step_nil hscript, hs, rfl⟩
  | cons e rest =>
    have he : HostEvent.inInterface s.buf.cap e = true := hs e (by simp [hscript])
    obtain ⟨t, ht, hrest, hcap⟩ := step_completes hscript he
    exact ⟨t, ht, hs.of_subset (by simp [hrest, hscript]) hcap, hcap⟩

end Sys2Proof.Machine
end

section
/-!
PROOFS. The statements about the encoding: command words and the commands they stand for (30_encoding.md
R60 to R67), and the transactions of the host's scripts (R68, R69).
-/

namespace Sys2Proof.Machine

variable {s t : State} {w : Word} {i : Instr}

/-! ## The fields of a word and of a command -/

theorem toNat_opcField (w : Word) : (opcField w).toNat = w.toNat % 256 := by
  simp [opcField]

theorem toNat_argField (w : Word) : (argField w).toNat = w.toNat / 256 := by
  have hw := w.isLt
  simp only [argField, BitVec.extractLsb'_toNat, Nat.shiftRight_eq_div_pow]
  omega

/-- Every command carries its OPC and ARG in the fields of its word (30_encoding.md R60 to R63). -/
theorem encode_fields (i : Instr) : Laws.EncodeFields.Statement i := by
  cases i with
  | nop => exact Laws.EncodeFields.nop
  | keyload => exact Laws.EncodeFields.keyload
  | encblk n => exact Laws.EncodeFields.encblk n
  | decblk n => exact Laws.EncodeFields.decblk n
  | pad => exact Laws.EncodeFields.pad
  | unpad => exact Laws.EncodeFields.unpad
  | encbuf => exact Laws.EncodeFields.encbuf
  | decbuf => exact Laws.EncodeFields.decbuf
  | encrypt => exact Laws.EncodeFields.encrypt
  | decrypt => exact Laws.EncodeFields.decrypt
  | keyclr => exact Laws.EncodeFields.keyclr

/-- A command is well-formed when its ARG fits 24 bits (30_encoding.md R62). -/
theorem wf_iff_arg_lt (i : Instr) : i.wf = true ↔ i.arg < 2 ^ 24 := by
  cases i with
  | encblk n => exact decide_eq_true_iff
  | decblk n => exact decide_eq_true_iff
  | _ => exact ⟨fun _ => Nat.two_pow_pos 24, fun _ => rfl⟩

/-- The opcode map: an OPC of 0 to 10, and ARG zero but in the two format B commands (30_encoding.md R63). -/
theorem exists_instr_iff (opc arg : Nat) : (∃ i : Instr, i.opcode = opc ∧ i.arg = arg) ↔
    opc ≤ 10 ∧ (opc = 2 ∨ opc = 3 ∨ arg = 0) := by
  constructor
  · rintro ⟨i, rfl, rfl⟩
    cases i <;> simp [Instr.opcode, Instr.arg]
  · rintro ⟨hopc, rfl | rfl | rfl⟩
    · exact ⟨.encblk arg, rfl, rfl⟩
    · exact ⟨.decblk arg, rfl, rfl⟩
    · interval_cases opc
      exacts [⟨.nop, rfl, rfl⟩, ⟨.keyload, rfl, rfl⟩, ⟨.encblk 0, rfl, rfl⟩, ⟨.decblk 0, rfl, rfl⟩,
        ⟨.pad, rfl, rfl⟩, ⟨.unpad, rfl, rfl⟩, ⟨.encbuf, rfl, rfl⟩, ⟨.decbuf, rfl, rfl⟩,
        ⟨.encrypt, rfl, rfl⟩, ⟨.decrypt, rfl, rfl⟩, ⟨.keyclr, rfl, rfl⟩]

/-! ## The decoder -/

theorem formatN_eq_command {j : Instr} : formatN w i = .command j ↔ (argField w).toNat = 0 ∧ i = j := by
  have hzero : (argField w).toNat = 0 ↔ argField w = 0 := BitVec.toNat_inj (y := 0#24)
  rw [formatN, hzero]
  split
  · next h => simp [h]
  · next h => exact iff_of_false nofun fun h' => h h'.1

theorem formatB_eq_command {f : Nat → Instr} : formatB w f = .command i ↔ f (argField w).toNat = i := by
  rw [formatB, Decoded.command.injEq]

/-- A word is the command that has its OPC and its ARG, and no other (30_encoding.md R63, R67). -/
theorem decode_eq_command_iff :
    decode w = .command i ↔ i.opcode = w.toNat % 256 ∧ i.arg = w.toNat / 256 := by
  rw [← toNat_opcField, ← toNat_argField]
  constructor
  · intro h
    unfold decode at h
    split at h
    case h_12 => cases h
    case h_3 hopc | h_4 hopc =>
      obtain rfl := formatB_eq_command.1 h
      exact ⟨hopc.symm, rfl⟩
    all_goals
      next hopc =>
        obtain ⟨harg, rfl⟩ := formatN_eq_command.1 h
        exact ⟨hopc.symm, harg.symm⟩
  · rintro ⟨hopc, harg⟩
    rw [decode, ← hopc]
    cases i with
    | encblk n => exact formatB_eq_command.2 (congrArg Instr.encblk harg.symm)
    | decblk n => exact formatB_eq_command.2 (congrArg Instr.decblk harg.symm)
    | _ => exact formatN_eq_command.2 ⟨harg.symm, rfl⟩

/-- Settles O1: the word has the command's two fields, and they decide what it decodes to. -/
theorem decodeOfEncodeIsTheCommand : Obligations.DecodeOfEncodeIsTheCommand := by
  intro i hwf
  obtain ⟨hopc, harg⟩ := encode_fields i hwf
  rw [toNat_opcField] at hopc
  rw [toNat_argField] at harg
  exact decode_eq_command_iff.2 ⟨hopc.symm, harg.symm⟩

/-- Settles O2: the command's fields are the word's, so its ARG fits and its word is built of the same two. -/
theorem encodeOfDecodeIsTheWord : Obligations.EncodeOfDecodeIsTheWord := by
  intro w i h
  obtain ⟨hopc, harg⟩ := decode_eq_command_iff.1 h
  have hw := w.isLt
  refine ⟨(wf_iff_arg_lt i).2 (by omega), BitVec.eq_of_toNat_eq ?_⟩
  rw [encode, BitVec.toNat_ofNat, hopc, harg]
  omega

/-- Settles O6: sanity checks of fixed words, each evaluated. -/
theorem commandWordsOfTheOpcodeMap : Obligations.CommandWordsOfTheOpcodeMap := by
  unfold Obligations.CommandWordsOfTheOpcodeMap
  decide

/-! ## Legal and illegal words -/

/-- The legal words, by OPC and ARG (30_encoding.md R64, R65). -/
theorem exists_decode_eq_command_iff : (∃ i, decode w = .command i) ↔
    w.toNat % 256 ≤ 10 ∧ (w.toNat % 256 = 2 ∨ w.toNat % 256 = 3 ∨ w.toNat / 256 = 0) := by
  simp only [decode_eq_command_iff, exists_instr_iff]

theorem not_exists_decode_eq_command_iff : (¬∃ i, decode w = .command i) ↔
    10 < w.toNat % 256 ∨ (w.toNat % 256 ≠ 2 ∧ w.toNat % 256 ≠ 3 ∧ w.toNat / 256 ≠ 0) := by
  rw [exists_decode_eq_command_iff]
  omega

/-- Decoding is total: a word that is no command is illegal (30_encoding.md R67). -/
theorem exists_decode_eq_illegal (h : ¬∃ i, decode w = .command i) : ∃ why, decode w = .illegal why := by
  cases hd : decode w with
  | command i => exact absurd ⟨i, hd⟩ h
  | illegal why => exact ⟨why, rfl⟩

theorem runCommand_of_command (h : decode w = .command i) (s : State) : runCommand w s = exec i s := by
  rw [runCommand, h]

/-- An illegal word ends with `IllegalCommand` and changes nothing else (30_encoding.md R64, R65). -/
theorem runCommand_of_not_command (h : ¬∃ i, decode w = .command i) (s : State) :
    runCommand w s = .next { s with errcode := 3 } := by
  obtain ⟨why, hwhy⟩ := exists_decode_eq_illegal h
  rw [runCommand, hwhy]
  rfl

/-- The same when the host writes the word to CMD; the step adds the redraw of the working registers
(10_state.md R13, R16). -/
theorem step_of_not_command (h : ¬∃ i, decode w = .command i) {rest : List HostEvent}
    (hscript : s.script = .regWrite 0 w :: rest) :
    ∃ t, step s = .next t ∧ t = { s with errcode := 3, script := rest, work := t.work, draws := t.draws } := by
  refine ⟨forgetWork { s with errcode := 3, script := rest }, ?_, rfl⟩
  rw [step_regWrite (r := .cmd) hscript, writeReg, runCommand_of_not_command h, commandDone]

/-- Settles O3: the illegal words are those whose fields no command has; every other one is its command. -/
theorem decodingFollowsOpcAndArg : Obligations.DecodingFollowsOpcAndArg := by
  intro w
  constructor
  · intro hill
    have hnone := not_exists_decode_eq_command_iff.2 hill
    exact ⟨exists_decode_eq_illegal hnone, runCommand_of_not_command hnone⟩
  · intro hleg
    rw [← not_exists_decode_eq_command_iff, not_not] at hleg
    obtain ⟨i, hi⟩ := hleg
    obtain ⟨hopc, harg⟩ := decode_eq_command_iff.1 hi
    exact ⟨i, hi, hopc, harg, runCommand_of_command hi⟩

/-- Settles O4: no command has a reserved OPC. -/
theorem reservedOpcodeSetsIllegalCommand : Obligations.ReservedOpcodeSetsIllegalCommand := by
  intro s w hopc
  have hnone := not_exists_decode_eq_command_iff.2 (.inl hopc)
  exact ⟨runCommand_of_not_command hnone s, fun _ => step_of_not_command hnone⟩

/-! ## The number of legal words -/

/-- The nine commands of format N (30_encoding.md R63). -/
def formatNCommands : Finset Instr :=
  {.nop, .keyload, .pad, .unpad, .encbuf, .decbuf, .encrypt, .decrypt, .keyclr}

/-- The commands whose block index, if they have one, is below `n` (30_encoding.md R63). -/
def commandsBelow (n : Nat) : Finset Instr :=
  formatNCommands ∪ ((Finset.range n).image .encblk ∪ (Finset.range n).image .decblk)

theorem mem_commandsBelow {n : Nat} (hn : 0 < n) : i ∈ commandsBelow n ↔ i.arg < n := by
  cases i with
  | encblk m => simp [commandsBelow, formatNCommands, Instr.arg]
  | decblk m => simp [commandsBelow, formatNCommands, Instr.arg]
  | _ => exact iff_of_true (Finset.mem_union_left _ (by decide)) hn

theorem card_commandsBelow (n : Nat) : (commandsBelow n).card = 9 + 2 * n := by
  have henc : ((Finset.range n).image Instr.encblk).card = n := by
    rw [Finset.card_image_of_injective _ fun _ _ => Instr.encblk.inj, Finset.card_range]
  have hdec : ((Finset.range n).image Instr.decblk).card = n := by
    rw [Finset.card_image_of_injective _ fun _ _ => Instr.decblk.inj, Finset.card_range]
  have hblocks : Disjoint ((Finset.range n).image Instr.encblk) ((Finset.range n).image Instr.decblk) := by
    simp [Finset.disjoint_left]
  have hformats : Disjoint formatNCommands
      ((Finset.range n).image Instr.encblk ∪ (Finset.range n).image Instr.decblk) := by
    simp [Finset.disjoint_left, formatNCommands]
  rw [commandsBelow, Finset.card_union_of_disjoint hformats, Finset.card_union_of_disjoint hblocks, henc, hdec,
    show formatNCommands.card = 9 from rfl]
  omega

/-- The legal words are the words of the well-formed commands, by the round trips of O1 and O2. -/
theorem setOf_legal_eq_image : {w : Word | ∃ i, decode w = .command i} = encode '' {i | i.wf = true} := by
  ext w
  constructor
  · rintro ⟨i, hi⟩
    exact ⟨i, encodeOfDecodeIsTheWord w i hi⟩
  · rintro ⟨i, hi, rfl⟩
    exact ⟨i, decodeOfEncodeIsTheCommand i hi⟩

theorem encode_injOn : Set.InjOn encode {i | i.wf = true} := by
  intro i hi j hj h
  have hij : Decoded.command i = .command j := by
    rw [← decodeOfEncodeIsTheCommand i hi, h, decodeOfEncodeIsTheCommand j hj]
  exact Decoded.command.inj hij

theorem ncard_legal : Set.ncard {w : Word | ∃ i, decode w = .command i} = 9 + 2 * 2 ^ 24 := by
  have hwf : {i : Instr | i.wf = true} = commandsBelow (2 ^ 24) := by
    ext i
    rw [Set.mem_ofPred_eq, wf_iff_arg_lt, Finset.mem_coe, mem_commandsBelow (Nat.two_pow_pos 24)]
  rw [setOf_legal_eq_image, encode_injOn.ncard_image, hwf, Set.ncard_coe_finset,
    card_commandsBelow]

/-- Settles O5: a format N command has ARG zero, and the legal words are as many as the well-formed commands. -/
theorem nonzeroArgIsIllegalAndLegalWordsAreCounted : Obligations.NonzeroArgIsIllegalAndLegalWordsAreCounted := by
  refine ⟨fun s w _ h2 h3 harg => ?_, fun w => ?_, ncard_legal⟩
  · have hnone := not_exists_decode_eq_command_iff.2 (.inr ⟨h2, h3, harg⟩)
    exact ⟨runCommand_of_not_command hnone s, fun _ => step_of_not_command hnone⟩
  · rw [exists_decode_eq_command_iff]
    omega

/-! ## Runs of the host's transactions (30_encoding.md R68) -/

/-- One step more of a run, where the next transaction writes a register. -/
theorem run_regWrite {r : Reg} {v : Word} {rest : List HostEvent} (n : Nat)
    (hscript : s.script = .regWrite r.offset v :: rest) (hw : writeReg r v { s with script := rest } = .next t) :
    Host.Core.run Sys2Proof.core (n + 1) s = Host.Core.run Sys2Proof.core n t :=
  run_next ((step_regWrite hscript).trans hw)

/-- The write of a well-formed command's word to CMD executes the command (10_state.md R16). -/
theorem writeReg_encode (hwf : i.wf = true) (h : exec i s = .next t) :
    writeReg .cmd (encode i) s = .next (forgetWork t) := by
  rw [writeReg, runCommand_of_command (decodeOfEncodeIsTheCommand i hwf), h, commandDone]

/-- The bytes `bs` stored at `a`, `a + 1`, and so on, in ascending order: what `BW` leaves. -/
def storeBytes : Nat → List Byte → State → State
  | _, [], s => s
  | a, b :: bs, s => storeBytes (a + 1) bs (storeByte a b s)

/-- The stored bytes change BUF only. -/
theorem exists_storeBytes_eq_setBuf (a : Nat) (bs : List Byte) (s : State) :
    ∃ m, storeBytes a bs s = setBuf m s := by
  induction bs generalizing a s with
  | nil => exact ⟨s.buf, rfl⟩
  | cons b bs ih => exact ih (a + 1) (storeByte a b s)

theorem byteAt_storeBytes (a : Nat) (bs : List Byte) (s : State) (x : Nat) : byteAt (storeBytes a bs s) x =
    if a ≤ x ∧ x < a + bs.length then bs.getD (x - a) 0 else byteAt s x := by
  induction bs generalizing a s with
  | nil => rw [if_neg (by simp)]; rfl
  | cons b bs ih =>
    rw [storeBytes, ih, byteAt_storeByte, List.length_cons]
    rcases Nat.lt_trichotomy x a with hlt | rfl | hgt
    · rw [if_neg (by omega), if_neg (by omega), if_neg (by omega)]
    · rw [if_neg (by omega), if_pos rfl, if_pos (by omega), Nat.sub_self, List.getD_cons_zero]
    · obtain ⟨k, rfl⟩ : ∃ k, x = a + 1 + k := ⟨x - (a + 1), by omega⟩
      rw [if_neg (by omega : ¬a + 1 + k = a), show a + 1 + k - a = k + 1 by omega, Nat.add_sub_cancel_left,
        List.getD_cons_succ]
      exact if_congr (by omega) rfl rfl

/-- A run through the transactions of `BW` stores its bytes, when they lie inside BUF (20_memory.md R41). -/
theorem run_bw {a : Nat} {bs : List Byte} {rest : List HostEvent} (n : Nat)
    (hscript : s.script = Script.bw a bs ++ rest) (hcap : a + bs.length ≤ s.buf.cap) :
    Host.Core.run Sys2Proof.core (bs.length + n) s =
      Host.Core.run Sys2Proof.core n (storeBytes a bs { s with script := rest }) := by
  induction bs generalizing a s with
  | nil =>
    rw [List.length_nil, Nat.zero_add, storeBytes, ← show s.script = rest from hscript]
  | cons b bs ih =>
    rw [List.length_cons] at hcap ⊢
    rw [Nat.add_right_comm, run_next (step_bufWrite hscript (by omega)), ih rfl (by simp; omega)]
    rfl

/-- Settles O38: the byte stores of `BW 0`, then the write of LEN. -/
theorem loadScriptPlacesTheData : Obligations.LoadScriptPlacesTheData := by
  intro s data hcap hscript
  have hrun := run_bw 1 hscript (by omega)
  have hbyte := byteAt_storeBytes 0 data { s with script := Script.wr .len (BitVec.ofNat 32 data.length) }
  obtain ⟨m, hm⟩ := exists_storeBytes_eq_setBuf 0 data
    { s with script := Script.wr .len (BitVec.ofNat 32 data.length) }
  rw [hm] at hrun hbyte
  refine ⟨_, hrun.trans (run_regWrite 0 rfl rfl), rfl, rfl, fun a => (hbyte a).trans ?_, rfl⟩
  rw [Nat.sub_zero, Nat.zero_add]
  exact if_congr (and_iff_right (Nat.zero_le a)) rfl rfl

/-! ## The staged secret -/

/-- The sixteen bytes of a key are the bytes of its four words (41_key_material.md R100, R101). -/
theorem secByte_keyOfBytes (kb : Nat → Byte) {i : Nat} (hi : i < 16) : secByte (keyOfBytes kb) i = kb i := by
  interval_cases i <;> simp [secByte, keyOfBytes, regOf]

/-- A key depends on its first sixteen bytes only (41_key_material.md R100). -/
theorem keyOfBytes_congr {f g : Nat → Byte} (h : ∀ i < 16, f i = g i) : keyOfBytes f = keyOfBytes g := by
  simp [keyOfBytes, h]

/-- The derived key, staged with the secret's length, is the key KEYLOAD loads (41_key_material.md R101). -/
theorem keyOfBytes_stagedKeyByte_deriveKey {secret : List Byte} (hlen : secret.length < 2 ^ 32) :
    keyOfBytes (stagedKeyByte (deriveKey secret) (BitVec.ofNat 32 secret.length)) = deriveKey secret := by
  refine keyOfBytes_congr fun i hi => ?_
  rw [stagedKeyByte, BitVec.toNat_ofNat, Nat.mod_eq_of_lt hlen]
  split
  · exact secByte_keyOfBytes _ hi
  · next hge => exact (List.getD_eq_default _ _ (Nat.not_lt.1 hge)).symm

/-- The first five transactions of `SETKEY` stage the derived key, word by word, and the secret's length. -/
theorem run_setkey_eq_run_keyload {secret : List Byte} (hscript : s.script = Script.setkey secret) :
    Host.Core.run Sys2Proof.core 6 s = Host.Core.run Sys2Proof.core 1
      { s with sec := deriveKey secret, slen := BitVec.ofNat 32 secret.length, script := Script.command .keyload } := by
  calc Host.Core.run Sys2Proof.core 6 s
    _ = Host.Core.run Sys2Proof.core 5 { s with
          sec := { s.sec with w0 := (deriveKey secret).w0 }, script := (Script.setkey secret).drop 1 } :=
        run_regWrite (r := .sec0) 5 hscript rfl
    _ = Host.Core.run Sys2Proof.core 4 { s with
          sec := { deriveKey secret with w2 := s.sec.w2, w3 := s.sec.w3 }, script := (Script.setkey secret).drop 2 } :=
        run_regWrite (r := .sec1) 4 rfl rfl
    _ = Host.Core.run Sys2Proof.core 3 { s with
          sec := { deriveKey secret with w3 := s.sec.w3 }, script := (Script.setkey secret).drop 3 } :=
        run_regWrite (r := .sec2) 3 rfl rfl
    _ = Host.Core.run Sys2Proof.core 2 { s with sec := deriveKey secret, script := (Script.setkey secret).drop 4 } :=
        run_regWrite (r := .sec3) 2 rfl rfl
    _ = Host.Core.run Sys2Proof.core 1 _ := run_regWrite (r := .slen) 1 rfl rfl

/-- Settles O37: the secret is staged, and KEYLOAD loads what is staged. -/
theorem setkeyScriptLoadsTheDerivedKey : Obligations.SetkeyScriptLoadsTheDerivedKey := by
  intro s secret hlen hscript
  have hrun := (run_setkey_eq_run_keyload hscript).trans
    (run_regWrite 0 rfl (writeReg_encode rfl (exec_keyload_eq _)))
  exact ⟨_, hrun, rfl, keyOfBytes_stagedKeyByte_deriveKey hlen, rfl, rfl, rfl, rfl, rfl, rfl, rfl⟩

end Sys2Proof.Machine
end

section
/-!
PROOFS. The statements about the block transform: MIX, the rounds and the key words they use, the two
directions and that they undo each other, and the commands ENCBLK and DECBLK (40_block_transform.md R80 to R89).
-/

namespace Sys2Proof.Machine

variable {s t u : State} {d : Direction} {n : Nat}

/-! ## MIX and the key words -/

/-- Settles O26: the two shifts are a product and a quotient, and both sums wrap. -/
theorem mixInNumbers : Obligations.MixInNumbers := by
  intro v sum k
  simp only [mix, BitVec.toNat_xor, BitVec.toNat_add, BitVec.toNat_shiftLeft, BitVec.toNat_ushiftRight,
    Nat.shiftLeft_eq, Nat.shiftRight_eq_div_pow]

/-- Settles O31: the two key index functions, evaluated at the SUM of each round. -/
theorem keyWordSchedule : Obligations.KeyWordSchedule := by
  unfold Obligations.KeyWordSchedule
  decide

theorem regOf_eq_keyWord (k : Words4) (i : BitVec 2) : regOf k i = keyWord k i.toNat := by
  obtain ⟨i⟩ := i
  fin_cases i <;> rfl

theorem toNat_keyIndexLow (sum : Word) : (keyIndexLow sum).toNat = sum.toNat % 4 := by
  have hmask : ∀ x, x &&& 3 = x % 4 := (Nat.and_two_pow_sub_one_eq_mod · 2)
  simp [keyIndexLow, hmask]

theorem toNat_keyIndexHigh (sum : Word) : (keyIndexHigh sum).toNat = sum.toNat / 2 ^ 11 % 4 := by
  rw [← Nat.shiftRight_eq_div_pow, ← BitVec.toNat_ushiftRight]
  exact toNat_keyIndexLow (shr32 sum 11)

/-! ## One round -/

/-- What a round reads and writes beside its counter RND (40_block_transform.md R81, R83). -/
def Work.triple (w : Work) : Word × Word × Word := (w.v0, w.v1, w.sum)

/-- The machine's encryption round is `EncRound` (40_block_transform.md R81). -/
theorem triple_encRound (k : Words4) (w : Work) : (encRound k w).triple = encRoundSpec k w.triple := by
  simp only [Work.triple, encRound, encRoundSpec, regOf_eq_keyWord, toNat_keyIndexLow, toNat_keyIndexHigh, Config.DELTA]

/-- The machine's decryption round is `DecRound` (40_block_transform.md R83). -/
theorem triple_decRound (k : Words4) (w : Work) : (decRound k w).triple = decRoundSpec k w.triple := by
  simp only [Work.triple, decRound, decRoundSpec, regOf_eq_keyWord, toNat_keyIndexLow, toNat_keyIndexHigh, Config.DELTA]

theorem decRoundSpec_encRoundSpec (k : Words4) (v : Word × Word × Word) : decRoundSpec k (encRoundSpec k v) = v := by
  simp only [decRoundSpec, encRoundSpec, BitVec.add_sub_cancel]

theorem encRoundSpec_decRoundSpec (k : Words4) (v : Word × Word × Word) : encRoundSpec k (decRoundSpec k v) = v := by
  simp only [decRoundSpec, encRoundSpec, BitVec.sub_add_cancel]

/-- Settles O29: the machine's rounds are the spec's, whose two lines each cancel. -/
theorem decRoundUndoesEncRound : Obligations.DecRoundUndoesEncRound := by
  intro k w
  have hinv : (decRound k (encRound k w)).triple = w.triple := by
    rw [triple_decRound, triple_encRound, decRoundSpec_encRoundSpec]
  simp only [Work.triple, Prod.mk.injEq] at hinv
  exact ⟨triple_decRound k w, decRoundSpec_encRoundSpec k w.triple, hinv⟩

/-! ## The rounds of a direction -/

/-- The direction that undoes a direction (40_block_transform.md R85). -/
def Direction.inverse : Direction → Direction
  | .encrypt => .decrypt
  | .decrypt => .encrypt

/-- The spec's round of a direction (40_block_transform.md R81, R83). -/
def cryptRoundSpec : Direction → Words4 → Word × Word × Word → Word × Word × Word
  | .encrypt => encRoundSpec
  | .decrypt => decRoundSpec

/-- What a round of a direction adds to SUM (40_block_transform.md R81, R83). -/
def sumStep : Direction → Word
  | .encrypt => Config.DELTA
  | .decrypt => -Config.DELTA

theorem triple_cryptRound (d : Direction) (k : Words4) (w : Work) :
    (cryptRound d k w).triple = cryptRoundSpec d k w.triple := by
  cases d with
  | encrypt => exact triple_encRound k w
  | decrypt => exact triple_decRound k w

theorem cryptRoundSpec_sum (d : Direction) (k : Words4) (v : Word × Word × Word) :
    (cryptRoundSpec d k v).2.2 = v.2.2 + sumStep d := by
  cases d with
  | encrypt => rfl
  | decrypt => exact BitVec.sub_eq_add_neg _ _

theorem cryptRoundSpec_leftInverse (d : Direction) (k : Words4) :
    Function.LeftInverse (cryptRoundSpec d.inverse k) (cryptRoundSpec d k) := by
  cases d with
  | encrypt => exact decRoundSpec_encRoundSpec k
  | decrypt => exact encRoundSpec_decRoundSpec k

/-- The machine's rounds are the spec's rounds, one after another. -/
theorem triple_rounds (d : Direction) (k : Words4) (n : Nat) (w : Work) :
    (rounds (cryptRound d k) n w).triple = (cryptRoundSpec d k)^[n] w.triple := by
  induction n with
  | zero => rfl
  | succ n ih => rw [rounds, triple_cryptRound, ih, Function.iterate_succ_apply']

/-- SUM after `n` rounds (40_block_transform.md R82, R84). -/
theorem iterate_cryptRoundSpec_sum (d : Direction) (k : Words4) (n : Nat) (v : Word × Word × Word) :
    ((cryptRoundSpec d k)^[n] v).2.2 = v.2.2 + BitVec.ofNat 32 n * sumStep d := by
  induction n with
  | zero => simp
  | succ n ih =>
    rw [Function.iterate_succ_apply', cryptRoundSpec_sum, ih, BitVec.ofNat_add, BitVec.add_mul, BitVec.one_mul,
      BitVec.add_assoc]

/-- A sequence that goes on by the spec's round is its iterates. -/
theorem eq_iterate_of_succ {k : Words4} {f : Nat → Word × Word × Word}
    (hf : ∀ r, f (r + 1) = cryptRoundSpec d k (f r)) (n : Nat) : f n = (cryptRoundSpec d k)^[n] (f 0) := by
  induction n with
  | zero => rfl
  | succ n ih => rw [hf, ih, Function.iterate_succ_apply']

/-! ## The whole transform -/

/-- SUM runs from the start of a direction to the start of the inverse one (40_block_transform.md R82, R84). -/
theorem sumInit_add_sumStep (d : Direction) : sumInit d + 32 * sumStep d = sumInit d.inverse := by
  cases d <;> rfl

/-- The transform of a block is 32 of the spec's rounds, and leaves in SUM the value the inverse direction
starts from (40_block_transform.md R82, R84). -/
theorem iterate_cryptRoundSpec_32 (d : Direction) (k : Words4) (v0 v1 : Word) :
    (cryptRoundSpec d k)^[32] (v0, v1, sumInit d) =
      ((cryptBlock d k v0 v1).1, (cryptBlock d k v0 v1).2, sumInit d.inverse) := by
  have hrounds : (cryptWork d k v0 v1).triple = (cryptRoundSpec d k)^[32] (v0, v1, sumInit d) := triple_rounds ..
  have hsum : ((cryptRoundSpec d k)^[32] (v0, v1, sumInit d)).2.2 = sumInit d.inverse :=
    (iterate_cryptRoundSpec_sum ..).trans (sumInit_add_sumStep d)
  rw [← hsum, ← hrounds, cryptBlock]
  rfl

/-- The inverse direction undoes the transform of a block (40_block_transform.md R85). -/
theorem cryptBlock_inverse (d : Direction) (k : Words4) (v0 v1 : Word) :
    cryptBlock d.inverse k (cryptBlock d k v0 v1).1 (cryptBlock d k v0 v1).2 = (v0, v1) := by
  have hback := (cryptRoundSpec_leftInverse d k).iterate 32 (v0, v1, sumInit d)
  rw [iterate_cryptRoundSpec_32, iterate_cryptRoundSpec_32] at hback
  simp only [Prod.mk.injEq] at hback
  obtain ⟨hv0, hv1, -⟩ := hback
  exact Prod.ext hv0 hv1

/-- Settles O27: the sequence is the iterates of the spec's round, and SUM goes up by DELTA. -/
theorem encryptionIsThirtyTwoRounds : Obligations.EncryptionIsThirtyTwoRounds := by
  intro k v0 v1 f hinit hstep
  have hf := eq_iterate_of_succ (d := .encrypt) hstep
  rw [hinit] at hf
  have hlast : f 32 = _ := (hf 32).trans (iterate_cryptRoundSpec_32 .encrypt k v0 v1)
  refine ⟨by rw [hlast], fun r => ?_, by rw [hlast]; rfl⟩
  have hsum : (f (r + 1)).2.2 = BitVec.ofNat 32 (r + 1) * Config.DELTA := by
    rw [hf, iterate_cryptRoundSpec_sum]
    exact BitVec.zero_add _
  rw [hsum, BitVec.toNat_mul, BitVec.toNat_ofNat, Nat.mod_mul_mod]
  rfl

/-- Settles O28: the sequence is the iterates of the spec's round, and SUM comes back to 0. -/
theorem decryptionIsThirtyTwoRounds : Obligations.DecryptionIsThirtyTwoRounds := by
  intro k v0 v1 f hinit hstep
  have hf := eq_iterate_of_succ (d := .decrypt) hstep 32
  rw [hinit] at hf
  have hlast : f 32 = _ := hf.trans (iterate_cryptRoundSpec_32 .decrypt k v0 v1)
  exact ⟨by rw [hlast], by rw [hlast]; rfl, rfl, rfl⟩

/-- Settles O30: each direction undoes the other, so decryption is the inverse function of encryption. -/
theorem blockTransformsAreInverse : Obligations.BlockTransformsAreInverse := fun k =>
  ⟨cryptBlock_inverse .encrypt k, cryptBlock_inverse .decrypt k,
    Function.bijective_iff_has_inverse.2 ⟨fun v => cryptBlock .decrypt k v.1 v.2,
      fun v => cryptBlock_inverse .encrypt k v.1 v.2, fun v => cryptBlock_inverse .decrypt k v.1 v.2⟩⟩

/-! ## One block of BUF -/

/-- Byte `i` of block `n` is the byte at `8 * n + i` (20_memory.md R42, R43). -/
theorem byteOfBlock_blockOf (b : Nat → Byte) (n : Nat) {i : Nat} (hi : i < 8) :
    byteOfBlock (blockOf b n) i = b (8 * n + i) := by
  interval_cases i <;> simp [byteOfBlock, blockOf]

/-- A byte function that holds a block's bytes at `8 * n` has it as its block `n` (20_memory.md R42, R43). -/
theorem blockOf_eq {b : Nat → Byte} {v : Word × Word} (h : ∀ i < 8, b (8 * n + i) = byteOfBlock v i) :
    blockOf b n = v := by
  have h0 : b (8 * n) = byteOfBlock v 0 := h 0 (by decide)
  rw [blockOf, h0, h 1 (by decide), h 2 (by decide), h 3 (by decide), h 4 (by decide), h 5 (by decide),
    h 6 (by decide), h 7 (by decide)]
  exact Prod.ext (wordOfBytes_bytes v.1) (wordOfBytes_bytes v.2)

@[simp] theorem byteAt_setErrcode (c : BitVec 8) (s : State) (a : Nat) : byteAt (setErrcode c s) a = byteAt s a := (rfl)

/-- What transforming block `n` leaves at each byte (40_block_transform.md R87, R88). -/
theorem byteAt_cipherBlock_block (d : Direction) (n : Nat) (s : State) (a : Nat) :
    byteAt (cipherBlock d (8 * n) s) a =
      if 8 * n ≤ a ∧ a < 8 * n + 8 then
        byteOfBlock (cryptBlock d s.k (blockOf (byteAt s) n).1 (blockOf (byteAt s) n).2) (a - 8 * n)
      else byteAt s a :=
  byteAt_cipherBlock d (8 * n) s a

theorem blockOf_cipherBlock (d : Direction) (n : Nat) (s : State) : blockOf (byteAt (cipherBlock d (8 * n) s)) n =
    cryptBlock d s.k (blockOf (byteAt s) n).1 (blockOf (byteAt s) n).2 :=
  blockOf_eq fun i hi => by rw [byteAt_cipherBlock_block, if_pos (by omega), Nat.add_sub_cancel_left]

/-- Transforming a block and transforming it back restores every byte (40_block_transform.md R88). -/
theorem byteAt_cipherBlock_inverse (d : Direction) (n : Nat) (s : State) (a : Nat) :
    byteAt (cipherBlock d.inverse (8 * n) (cipherBlock d (8 * n) s)) a = byteAt s a := by
  rw [byteAt_cipherBlock_block, byteAt_cipherBlock_block, blockOf_cipherBlock, cipherBlock_k, cryptBlock_inverse]
  split
  · next ha =>
    rw [byteOfBlock_blockOf _ _ (by omega), Nat.add_sub_cancel' ha.1]
  · rfl

/-! ## ENCBLK and DECBLK -/

theorem cryptBlockCommand_noKey (hk : s.keyvalid = false) : cryptBlockCommand d n s = .next (setErrcode 5 s) := by
  rw [cryptBlockCommand, if_pos hk]
  rfl

theorem cryptBlockCommand_range (hk : s.keyvalid = true) (hr : s.buf.cap < 8 * n + 8) :
    cryptBlockCommand d n s = .next (setErrcode 4 s) := by
  rw [cryptBlockCommand, if_neg (by simp [hk]), if_pos (blockOutOfRange_eq_true.2 hr)]
  rfl

theorem cryptBlockCommand_success (hk : s.keyvalid = true) (hr : 8 * n + 8 ≤ s.buf.cap) :
    cryptBlockCommand d n s = .next (setErrcode 0 (cipherBlock d (8 * n) s)) := by
  rw [cryptBlockCommand, if_neg (by simp [hk]), if_neg (by rw [blockOutOfRange_eq_true]; omega)]
  exact succeed_eq_next.2 rfl

/-- Both single-block commands: the two errors, and success with every byte (40_block_transform.md R87, R88). -/
theorem cryptBlockCommand_answers (d : Direction) (n : Nat) (s : State) :
    (s.keyvalid = false → cryptBlockCommand d n s = .next { s with errcode := 5 }) ∧
    (s.keyvalid = true → s.buf.cap < 8 * n + 8 → cryptBlockCommand d n s = .next { s with errcode := 4 }) ∧
    (s.keyvalid = true → 8 * n + 8 ≤ s.buf.cap →
      ∃ t, cryptBlockCommand d n s = .next t ∧ t = { s with errcode := 0, buf := t.buf, work := t.work } ∧
        t.buf.cap = s.buf.cap ∧
        ∀ a, byteAt t a =
          if 8 * n ≤ a ∧ a < 8 * n + 8 then
            byteOfBlock (cryptBlock d s.k (blockOf (byteAt s) n).1 (blockOf (byteAt s) n).2) (a - 8 * n)
          else byteAt s a) := by
  refine ⟨cryptBlockCommand_noKey, cryptBlockCommand_range, fun hk hr =>
    ⟨_, cryptBlockCommand_success hk hr, ?_, ?_, byteAt_cipherBlock_block d n s⟩⟩
  · apply State.ext <;> simp
  · simp

/-- A block command that succeeds leaves the key, KEYVALID and the capacity, so the inverse command succeeds
too, and it restores every byte (40_block_transform.md R88). -/
theorem cryptBlockCommand_inverse (hst : cryptBlockCommand d n s = .next t) (hok : t.errcode = 0)
    (htu : cryptBlockCommand d.inverse n t = .next u) : u.errcode = 0 ∧ ∀ a, byteAt u a = byteAt s a := by
  rcases cryptBlockCommand_cases hst with ⟨-, rfl⟩ | ⟨-, -, rfl⟩ | ⟨hk, hr, rfl⟩
  · exact absurd hok (by simp)
  · exact absurd hok (by simp)
  · rw [cryptBlockCommand_success (by simpa using hk) (by simpa using hr), cipherBlock_setErrcode] at htu
    obtain rfl := Host.Outcome.next.inj htu
    exact ⟨rfl, fun a => by rw [byteAt_setErrcode, byteAt_setErrcode, byteAt_cipherBlock_inverse]⟩

/-- The word `(n << 8) | opc` of a format B command has the command's two fields (30_encoding.md R60). -/
theorem decode_ofNat_block {i : Instr} (hn : n < 2 ^ 24) (hopc : i.opcode < 256) (harg : i.arg = n) :
    decode (BitVec.ofNat 32 (n * 256 + i.opcode)) = .command i := by
  rw [decode_eq_command_iff, BitVec.toNat_ofNat]
  omega

set_option maxRecDepth 100000 in
/-- Settles O32: the answers of the encrypting block command, and the example of R87 evaluated. -/
theorem encblkEncryptsOneBlockInPlace : Obligations.EncblkEncryptsOneBlockInPlace :=
  ⟨fun n s hn => ⟨decode_ofNat_block (i := .encblk n) hn (by simp [Instr.opcode]) rfl,
      cryptBlockCommand_answers .encrypt n s⟩,
    by decide⟩

set_option maxRecDepth 100000 in
/-- Settles O33: the answers of the decrypting block command, the two round trips, and the zero block evaluated. -/
theorem decblkDecryptsOneBlockInPlace : Obligations.DecblkDecryptsOneBlockInPlace :=
  ⟨fun n s hn => ⟨decode_ofNat_block (i := .decblk n) hn (by simp [Instr.opcode]) rfl,
      cryptBlockCommand_answers .decrypt n s⟩,
    fun _ _ _ _ => cryptBlockCommand_inverse (d := .encrypt),
    fun _ _ _ _ => cryptBlockCommand_inverse (d := .decrypt),
    by decide⟩

end Sys2Proof.Machine
end

section
/-!
PROOFS. The statements about key material: which secrets give the same key, KEYLOAD and KEYCLR, and runs in which
no KEYLOAD follows a KEYCLR (41_key_material.md R100 to R103).
-/

namespace Sys2Proof.Machine

variable {s t u : State} {i : Instr}

/-! ## Secrets with the same key -/

/-- Byte `i` of the derived key is the secret's, and zero past its end (41_key_material.md R100). -/
theorem secByte_deriveKey (secret : List Byte) {i : Nat} (hi : i < 16) : secByte (deriveKey secret) i = secret.getD i 0 :=
  secByte_keyOfBytes _ hi

theorem deriveKey_append_zeros (secret : List Byte) (n : Nat) :
    deriveKey (secret ++ List.replicate n 0) = deriveKey secret := by
  refine keyOfBytes_congr fun i _ => ?_
  rcases Nat.lt_or_ge i secret.length with hlt | hge
  · exact List.getD_append _ _ _ _ hlt
  · rw [List.getD_append_right _ _ _ _ hge, List.getD_eq_getElem?_getD, List.getElem?_getD_replicate_default_eq,
      List.getD_eq_default _ _ hge]

theorem deriveKey_take (secret : List Byte) : deriveKey (secret.take 16) = deriveKey secret :=
  keyOfBytes_congr fun i hi => by simp only [List.getD_eq_getElem?_getD, List.getElem?_take_of_lt hi]

/-- The part of a secret that its key depends on: the first sixteen bytes without the zeros at their end
(41_key_material.md R103). -/
def significantBytes (secret : List Byte) : List Byte := (secret.take 16).rdropWhile (· == 0)

theorem length_significantBytes_le (secret : List Byte) : (significantBytes secret).length ≤ 16 :=
  (List.rdropWhile_prefix _ _).length_le.trans (List.length_take_le 16 secret)

theorem getLast_significantBytes_ne_zero (secret : List Byte) (h : significantBytes secret ≠ []) :
    (significantBytes secret).getLast h ≠ 0 := by
  simpa [significantBytes] using List.rdropWhile_last_not (· == 0) (secret.take 16) h

/-- What is stripped off is a run of zeros. -/
theorem exists_significantBytes_append_zeros (secret : List Byte) :
    ∃ n, significantBytes secret ++ List.replicate n 0 = secret.take 16 := by
  refine ⟨((secret.take 16).rtakeWhile (· == 0)).length, ?_⟩
  have hzeros : (secret.take 16).rtakeWhile (· == 0) = List.replicate _ 0 :=
    List.eq_replicate_of_mem fun b hb => by simpa using List.mem_rtakeWhile_imp hb
  rw [← hzeros]
  exact List.rdropWhile_append_rtakeWhile

theorem deriveKey_significantBytes (secret : List Byte) : deriveKey (significantBytes secret) = deriveKey secret := by
  obtain ⟨n, hn⟩ := exists_significantBytes_append_zeros secret
  rw [← deriveKey_take secret, ← hn, deriveKey_append_zeros]

/-- A list whose last byte is not zero is no longer than a list that reads the same with zeros past its end. -/
theorem length_le_of_getD_eq {a b : List Byte} (hlast : ∀ h : a ≠ [], a.getLast h ≠ 0)
    (heq : ∀ i, a.getD i 0 = b.getD i 0) : a.length ≤ b.length := by
  by_contra hlt
  have hne : a ≠ [] := List.ne_nil_of_length_pos (by omega)
  refine hlast hne ?_
  calc a.getLast hne
    _ = a.getD (a.length - 1) 0 := by rw [List.getLast_eq_getElem, List.getD_eq_getElem]
    _ = b.getD (a.length - 1) 0 := heq _
    _ = 0 := List.getD_eq_default _ _ (by omega)

theorem significantBytes_eq_of_getD_eq {a b : List Byte}
    (h : ∀ i, (significantBytes a).getD i 0 = (significantBytes b).getD i 0) :
    significantBytes a = significantBytes b := by
  refine List.ext_getElem (Nat.le_antisymm ?_ ?_) fun i ha hb => ?_
  · exact length_le_of_getD_eq (getLast_significantBytes_ne_zero a) h
  · exact length_le_of_getD_eq (getLast_significantBytes_ne_zero b) fun i => (h i).symm
  · rw [← List.getD_eq_getElem _ 0 ha, h i, List.getD_eq_getElem]

theorem deriveKey_eq_iff {a b : List Byte} : deriveKey a = deriveKey b ↔ significantBytes a = significantBytes b := by
  constructor
  · intro h
    refine significantBytes_eq_of_getD_eq fun i => ?_
    rcases Nat.lt_or_ge i 16 with hi | hi
    · rw [← secByte_deriveKey _ hi, ← secByte_deriveKey _ hi, deriveKey_significantBytes, deriveKey_significantBytes, h]
    · rw [List.getD_eq_default _ _ ((length_significantBytes_le a).trans hi),
        List.getD_eq_default _ _ ((length_significantBytes_le b).trans hi)]
  · intro h
    rw [← deriveKey_significantBytes a, h, deriveKey_significantBytes]

/-- Settles O34: the key is that of the significant bytes, and it determines them. -/
theorem deriveKeyEqualities : Obligations.DeriveKeyEqualities :=
  ⟨deriveKey_append_zeros, fun secret => (deriveKey_take secret).symm, fun _ _ => deriveKey_eq_iff⟩

/-! ## KEYLOAD -/

/-- Four words are the words of their sixteen bytes (41_key_material.md R101). -/
theorem keyOfBytes_secByte (sec : Words4) : keyOfBytes (secByte sec) = sec := by
  simp [keyOfBytes, secByte, regOf]

theorem keyOfBytes_stagedKeyByte_zero (sec : Words4) : keyOfBytes (stagedKeyByte sec 0) = ⟨0, 0, 0, 0⟩ :=
  keyOfBytes_congr (g := fun _ => 0) fun _ _ => rfl

theorem keyOfBytes_stagedKeyByte_of_le {slen : Word} (h : 16 ≤ slen.toNat) (sec : Words4) :
    keyOfBytes (stagedKeyByte sec slen) = sec := by
  refine (keyOfBytes_congr fun i hi => ?_).trans (keyOfBytes_secByte sec)
  rw [stagedKeyByte, if_pos (by omega)]

/-- The staged secret's key, whatever stale bytes stand above its length (41_key_material.md R101). -/
theorem keyOfBytes_stagedKeyByte_of_staged {sec : Words4} {slen : Word} {secret : List Byte}
    (hlen : secret.length = slen.toNat)
    (hbytes : ∀ i, i < 16 → i < secret.length → secByte sec i = secret.getD i 0) :
    keyOfBytes (stagedKeyByte sec slen) = deriveKey secret := by
  refine keyOfBytes_congr fun i hi => ?_
  rw [stagedKeyByte, ← hlen]
  split
  · next hlt => exact hbytes i hi hlt
  · next hge => exact (List.getD_eq_default _ _ (Nat.not_lt.1 hge)).symm

/-- STATUS after a success shows KEYVALID alone (10_state.md R17). -/
theorem statusWord_of_success (he : s.errcode = 0) : statusWord s = if s.keyvalid then 0x100 else 0 := by
  rw [statusWord, he]
  cases s.keyvalid <;> decide

/-- Settles O35: KEYLOAD's one answer, and its key by the bytes it is made of. -/
theorem keyloadLoadsTheMaskedSecret : Obligations.KeyloadLoadsTheMaskedSecret := by
  refine fun s => ⟨by decide, _, exec_keyload_eq s, rfl, fun i hi => secByte_keyOfBytes _ hi, fun h => ?_, fun h => ?_,
    statusWord_of_success rfl, fun secret hlen hbytes => keyOfBytes_stagedKeyByte_of_staged hlen hbytes⟩
  · rw [h]; exact keyOfBytes_stagedKeyByte_zero s.sec
  · exact keyOfBytes_stagedKeyByte_of_le h s.sec

/-! ## Commands without a key -/

theorem cryptBufCommand_noKey {d : Direction} (hk : s.keyvalid = false) :
    cryptBufCommand d s = .next (setErrcode 5 s) := by
  rw [cryptBufCommand, if_pos hk]
  rfl

theorem execEncrypt_noKey (hk : s.keyvalid = false) : execEncrypt s = .next (setErrcode 5 s) := by
  rw [execEncrypt, if_pos hk]
  rfl

theorem execDecrypt_noKey (hk : s.keyvalid = false) : execDecrypt s = .next (setErrcode 5 s) := by
  rw [execDecrypt, if_pos hk]
  rfl

/-- The six cipher commands fail with `NoKey` and change nothing else (60_exceptions.md R162 item 2). -/
theorem exec_noKey (hi : Instr.needsKey i = true) (hk : s.keyvalid = false) :
    exec i s = .next { s with errcode := 5 } := by
  cases i with
  | encblk n => exact cryptBlockCommand_noKey hk
  | decblk n => exact cryptBlockCommand_noKey hk
  | encbuf => exact cryptBufCommand_noKey hk
  | decbuf => exact cryptBufCommand_noKey hk
  | encrypt => exact execEncrypt_noKey hk
  | decrypt => exact execDecrypt_noKey hk
  | nop | keyload | pad | unpad | keyclr => cases hi

/-! ## No step but KEYLOAD makes a key -/

/-- No key is loaded, and no key word is left in K: what KEYCLR leaves (41_key_material.md R102). -/
structure State.Keyless (s : State) : Prop where
  keyvalid : s.keyvalid = false
  k : s.k = Words4.zero

theorem exec_keeps_keyless (hi : i ≠ .keyload) (hs : s.Keyless) (h : exec i s = .next t) : t.Keyless := by
  by_cases hclr : i = .keyclr
  · subst hclr
    rw [exec_keyclr_eq] at h
    cases h
    exact ⟨rfl, rfl⟩
  · have hf := exec_dataFrame hi hclr h
    exact ⟨hf.keyvalid.trans hs.keyvalid, hf.k.trans hs.k⟩

theorem runCommand_keeps_keyless {w : Word} (hw : decode w ≠ .command .keyload) (hs : s.Keyless)
    (h : runCommand w s = .next t) : t.Keyless := by
  rcases runCommand_cases h with ⟨i, hd, hi⟩ | ⟨why, -, rfl⟩
  · exact exec_keeps_keyless (by rintro rfl; exact hw hd) hs hi
  · exact ⟨hs.keyvalid, hs.k⟩

theorem accept_keeps_keyless {e : HostEvent} (he : ∀ w, e = .regWrite 0 w → decode w ≠ .command .keyload)
    (hs : s.Keyless) (h : accept e s = .next t) : t.Keyless := by
  rcases accept_cases h with ⟨off, v, r, rfl, hr, hw⟩ | ⟨off, r, -, -, rfl⟩ | ⟨a, b, -, -, rfl⟩ |
    ⟨a, -, -, rfl⟩ | ⟨-, rfl⟩
  · rcases writeReg_cases hw with ⟨rfl, u, hu, rfl⟩ | ⟨-, ht⟩
    · obtain rfl := regAt_eq_some hr
      have hkeyless := runCommand_keeps_keyless (he v rfl) hs hu
      exact ⟨hkeyless.keyvalid, hkeyless.k⟩
    · rw [ht]; exact ⟨hs.keyvalid, hs.k⟩
  · exact ⟨hs.keyvalid, hs.k⟩
  · exact ⟨hs.keyvalid, hs.k⟩
  · exact ⟨hs.keyvalid, hs.k⟩
  · exact ⟨rfl, rfl⟩

theorem step_keeps_keyless (hno : ∀ w rest, s.script = .regWrite 0 w :: rest → decode w ≠ .command .keyload)
    (hs : s.Keyless) (h : step s = .next t) : t.Keyless := by
  rcases step_cases h with ⟨-, rfl⟩ | ⟨e, rest, hscript, he⟩
  · exact hs
  · exact accept_keeps_keyless (s := { s with script := rest }) (fun w hw => hno w rest (hw ▸ hscript)) ⟨hs.keyvalid, hs.k⟩ he

/-! ## Runs after KEYCLR -/

theorem step_script_subset (h : step s = .next t) : t.script ⊆ s.script := by
  rcases step_cases h with ⟨-, rfl⟩ | ⟨e, rest, hscript, he⟩
  · exact List.Subset.refl _
  · rw [(accept_script_cap he).1, hscript]
    exact List.subset_cons_self e rest

theorem run_succ_eq_next {n : Nat} (h : Host.Core.run Sys2Proof.core (n + 1) s = .next u) :
    ∃ t, step s = .next t ∧ Host.Core.run Sys2Proof.core n t = .next u := by
  cases hstep : step s with
  | next t => exact ⟨t, rfl, (run_next hstep).symm.trans h⟩
  | fault f => exact nomatch f
  | refused r =>
    have hcore : Sys2Proof.core.step s = .refused r := hstep
    simp [Host.Core.run, hcore] at h

/-- What every step keeps, every run keeps. -/
theorem run_keeps {P : State → Prop} (hstep : ∀ s t, P s → step s = .next t → P t) {n : Nat} (hs : P s)
    (h : Host.Core.run Sys2Proof.core n s = .next u) : P u := by
  induction n generalizing s with
  | zero => cases h; exact hs
  | succ n ih =>
    obtain ⟨t, ht, hrun⟩ := run_succ_eq_next h
    exact ih (hstep s t hs ht) hrun

/-- No transaction that the host has still to make runs KEYLOAD. -/
def State.NoKeyloadPending (s : State) : Prop :=
  ∀ w : Word, HostEvent.regWrite 0 w ∈ s.script → decode w ≠ .command .keyload

theorem run_keeps_keyless {n : Nat} (hs : s.Keyless) (hno : s.NoKeyloadPending)
    (h : Host.Core.run Sys2Proof.core n s = .next u) : u.Keyless := by
  refine (run_keeps (P := fun s => s.Keyless ∧ s.NoKeyloadPending) ?_ ⟨hs, hno⟩ h).1
  rintro s t ⟨hs, hno⟩ h
  exact ⟨step_keeps_keyless (fun w rest hscript => hno w (by simp [hscript])) hs h,
    fun w hw => hno w (step_script_subset h hw)⟩

theorem decode_keyclr_word : decode 0x0000000A#32 = .command .keyclr := by decide

theorem step_keyclr {rest : List HostEvent} (hscript : s.script = .regWrite 0 0x0000000A#32 :: rest)
    (h : step s = .next t) : t.Keyless ∧ t.script = rest := by
  obtain ⟨u, hu, hrest, hstep⟩ := stepRunsTheDecodedCommand s _ rest .keyclr hscript decode_keyclr_word
  rw [hstep] at h
  rw [exec_keyclr_eq] at hu
  cases h
  cases hu
  exact ⟨⟨rfl, rfl⟩, hrest⟩

/-- Settles O36: KEYCLR's one answer; every step but KEYLOAD keeps the state keyless; and so does a run with no
KEYLOAD pending, in whose states no cipher command finds a key. -/
theorem keyclrForgetsTheKey : Obligations.KeyclrForgetsTheKey := by
  refine ⟨fun s => ⟨decode_keyclr_word, exec_keyclr_eq s, fun t u hclr => ?_⟩, fun s t hv hk h hno => ?_,
    fun s u rest n hscript hrest h => ?_⟩
  · rw [exec_keyclr_eq] at hclr
    cases hclr
    refine ⟨statusWord_of_success rfl, fun i hi hu => ?_⟩
    rw [exec_noKey hi rfl] at hu
    cases hu
    rfl
  · have ht := step_keeps_keyless hno ⟨hv, hk⟩ h
    exact ⟨ht.keyvalid, ht.k⟩
  · obtain ⟨t, hstep, hrun⟩ := run_succ_eq_next h
    obtain ⟨ht, rfl⟩ := step_keyclr hscript hstep
    have hu := run_keeps_keyless ht hrest hrun
    exact ⟨hu.keyvalid, hu.k, fun i hi => exec_noKey hi hu.keyvalid⟩

end Sys2Proof.Machine
end

section
/-!
PROOFS. The statements about the padding codec: the count, the tails that are valid padding, and the commands PAD
and UNPAD (42_padding_codec.md R110 to R115).
-/

namespace Sys2Proof.Machine

variable {s t u : State} {p : Nat}

/-! ## The count -/

/-- The padded length is a multiple of 8 in both modes (42_padding_codec.md R110). -/
theorem len_add_computePadding_mod (len : Nat) (padfull : Bool) : (len + computePadding len padfull) % 8 = 0 := by
  rw [computePadding_eq]
  split_ifs <;> omega

theorem computePadding_false_le (len : Nat) : computePadding len false ≤ 7 := by
  simp only [computePadding_eq, and_true]
  split_ifs <;> omega

theorem computePadding_true_pos (len : Nat) : 1 ≤ computePadding len true := by
  rw [computePadding_eq, if_neg (by simp)]
  omega

/-- Settles O39: the divisibility and the range of each mode, and the function as the spec writes it. -/
theorem computePaddingRange : Obligations.ComputePaddingRange := fun len =>
  ⟨len_add_computePadding_mod len false, len_add_computePadding_mod len true, computePadding_false_le len,
    computePadding_true_pos len, computePadding_le len true, fun _ => rfl⟩

/-- The padded length overflows a buffer that holds the data only where a whole block is added to a full buffer
(42_padding_codec.md R112). -/
theorem lt_len_add_computePadding_iff {cap len : Nat} {padfull : Bool} (hcap : Config.capOk cap = true)
    (hlen : len ≤ cap) : cap < len + computePadding len padfull ↔ padfull = true ∧ len = cap := by
  obtain ⟨hcap8, -⟩ := (capOk_iff cap).1 hcap
  have hmod := len_add_computePadding_mod len padfull
  have hle := computePadding_le len padfull
  cases padfull with
  | false =>
    have hle7 := computePadding_false_le len
    simp only [Bool.false_eq_true, false_and, iff_false]
    omega
  | true =>
    have hpos := computePadding_true_pos len
    simp only [true_and]
    omega

/-! ## Valid padding -/

theorem tailUniform_eq_true {b : Nat → Byte} {len : Nat} {v : Byte} :
    tailUniform b len p v = true ↔ ∀ i, 1 ≤ i → i ≤ p → b (len - i) = v := by
  simp only [tailUniform, List.all_eq_true, List.mem_range, beq_iff_eq]
  refine ⟨fun h i h1 hp => ?_, fun h i hi => h (i + 1) (by omega) hi⟩
  obtain ⟨j, rfl⟩ := Nat.exists_eq_add_of_le' h1
  exact h j hp

/-- The last byte is the count that is removed, if it passes the checks (a) to (d) (42_padding_codec.md R113). -/
theorem stripPadding_eq (b : Nat → Byte) (len : Nat) : stripPadding b len =
    if len ≠ 0 ∧ (b (len - 1) ≠ 0 ∧ (b (len - 1)).toNat ≤ 8) ∧ (b (len - 1)).toNat ≤ len ∧
      tailUniform b len (b (len - 1)).toNat (b (len - 1)) then some (b (len - 1)).toNat else none := by
  have h8 : Config.BLOCK_BYTES = 8 := rfl
  have hzero : (b (len - 1)).toNat = 0 ↔ b (len - 1) = 0 := BitVec.toNat_inj (y := 0)
  simp only [stripPadding, h8, hzero, ne_eq, ← Nat.not_lt, ite_and, ite_or, ite_not]

/-- A tail of `p` bytes that name `p` is valid padding, and no other buffer has any (42_padding_codec.md R113). -/
theorem stripPadding_eq_some_iff {b : Nat → Byte} {len : Nat} : stripPadding b len = some p ↔
    len ≠ 0 ∧ 1 ≤ p ∧ p ≤ 8 ∧ p ≤ len ∧ ∀ i, 1 ≤ i → i ≤ p → (b (len - i)).toNat = p := by
  rw [stripPadding_eq, Option.ite_none_right_eq_some, Option.some_inj, tailUniform_eq_true, ne_eq (b _),
    ← BitVec.toNat_inj]
  constructor
  · rintro ⟨⟨h0, ⟨h1, h8⟩, hlen, htail⟩, rfl⟩
    exact ⟨h0, Nat.pos_of_ne_zero h1, h8, hlen, fun i hi hp => by rw [htail i hi hp]⟩
  · rintro ⟨h0, h1, h8, hlen, htail⟩
    have hlast := htail 1 le_rfl h1
    rw [hlast]
    refine ⟨⟨h0, ⟨Nat.ne_of_gt h1, h8⟩, hlen, fun i hi hp => BitVec.eq_of_toNat_eq ?_⟩, rfl⟩
    rw [htail i hi hp, hlast]

/-- The checks (a) to (d) negated: one of them fails (42_padding_codec.md R113). -/
theorem stripPadding_eq_none_iff {b : Nat → Byte} {len : Nat} : stripPadding b len = none ↔
    len = 0 ∨ b (len - 1) = 0 ∨ 8 < (b (len - 1)).toNat ∨ len < (b (len - 1)).toNat ∨
      ∃ i, 1 ≤ i ∧ i ≤ (b (len - 1)).toNat ∧ b (len - i) ≠ b (len - 1) := by
  simp only [stripPadding_eq, ite_eq_right_iff, reduceCtorEq, imp_false, tailUniform_eq_true, not_and_or, not_forall,
    ne_eq, not_not, Nat.not_le, exists_prop, or_assoc]

/-- Settles O41: the checks (a) to (d), all passed or one failed. -/
theorem stripPaddingAcceptsExactlyUniformTails : Obligations.StripPaddingAcceptsExactlyUniformTails :=
  fun _ _ => ⟨fun _ => stripPadding_eq_some_iff, stripPadding_eq_none_iff⟩

/-! ## PAD -/

@[simp] theorem byteAt_setPadcnt (v : Word) (s : State) (a : Nat) : byteAt (setPadcnt v s) a = byteAt s a := (rfl)

@[simp] theorem byteAt_setLen (v : Word) (s : State) (a : Nat) : byteAt (setLen v s) a = byteAt s a := (rfl)

/-- The padding is `p` bytes of value `p` from the old LEN on, and no other byte moves (42_padding_codec.md R111). -/
theorem byteAt_applyPadding (p : Nat) (s : State) (a : Nat) : byteAt (applyPadding p s) a =
    if s.len.toNat ≤ a ∧ a < s.len.toNat + p then BitVec.ofNat 8 p else byteAt s a := by
  rw [applyPadding, byteAt_setLen, byteAt_storeFill]

theorem toNat_setPadcnt_ofNat (s : State) (hp : p ≤ 8) : (setPadcnt (BitVec.ofNat 32 p) s).padcnt.toNat = p := by
  rw [setPadcnt_padcnt, BitVec.toNat_ofNat, Nat.mod_eq_of_lt (by omega)]

theorem exec_pad_range (h : s.buf.cap < s.len.toNat + computePadding s.len.toNat s.padfull) :
    exec .pad s = .next (setErrcode 4 s) := by
  obtain ⟨t, ht⟩ := exec_completes .pad s
  rcases execPad_cases ht with ⟨-, rfl⟩ | ⟨hl, -⟩
  · exact ht
  · omega

theorem exec_pad_success (h : s.len.toNat + computePadding s.len.toNat s.padfull ≤ s.buf.cap) :
    exec .pad s = .next (setErrcode 0 (setPadcnt (BitVec.ofNat 32 (computePadding s.len.toNat s.padfull))
      (applyPadding (computePadding s.len.toNat s.padfull) s))) := by
  obtain ⟨t, ht⟩ := exec_completes .pad s
  rcases execPad_cases ht with ⟨hl, -⟩ | ⟨-, rfl⟩
  · omega
  · exact ht

/-- Settles O40: the two answers of PAD, the second with every byte, and when the padded length overflows. -/
theorem padAppendsThePadding : Obligations.PadAppendsThePadding := by
  intro s
  refine ⟨by decide, fun h => exec_pad_range (by omega),
    fun h => ⟨_, exec_pad_success h, ?_, ?_, ?_, ?_, fun a => ?_⟩, lt_len_add_computePadding_iff⟩
  · apply State.ext <;> simp
  · simp
  · simp [applyPadding_len]
  · rw [setErrcode_padcnt, toNat_setPadcnt_ofNat _ (computePadding_le _ _)]
  · rw [byteAt_setErrcode, byteAt_setPadcnt, byteAt_applyPadding]

/-! ## UNPAD -/

theorem removePadding_invalid (h : stripPadding (byteAt s) s.len.toNat = none) :
    removePadding s = .next (setErrcode 2 s) := by
  rw [removePadding, h]
  rfl

theorem removePadding_valid (h : stripPadding (byteAt s) s.len.toNat = some p) : removePadding s =
    .next (setErrcode 0 (setPadcnt (BitVec.ofNat 32 p) (setLen (BitVec.ofNat 32 (s.len.toNat - p)) s))) := by
  rw [removePadding, h]
  rfl

theorem exec_unpad_range (h : s.buf.cap < s.len.toNat) : exec .unpad s = .next (setErrcode 4 s) := by
  obtain ⟨t, ht⟩ := exec_completes .unpad s
  rcases execUnpad_cases ht with ⟨-, rfl⟩ | ⟨hl, -⟩
  · exact ht
  · omega

theorem exec_unpad_of_le (h : s.len.toNat ≤ s.buf.cap) : exec .unpad s = removePadding s := by
  obtain ⟨t, ht⟩ := exec_completes .unpad s
  rcases execUnpad_cases ht with ⟨hl, -⟩ | ⟨-, hr⟩
  · omega
  · rw [ht, hr]

/-- The length that is left fits LEN (log entry 5). -/
theorem toNat_ofNat_len_sub (s : State) (p : Nat) : (BitVec.ofNat 32 (s.len.toNat - p)).toNat = s.len.toNat - p := by
  have := s.len.isLt
  rw [BitVec.toNat_ofNat, Nat.mod_eq_of_lt (by omega)]

/-- Settles O42: the three answers of UNPAD, the last with LEN and PADCNT in numbers. -/
theorem unpadValidatesAndRemoves : Obligations.UnpadValidatesAndRemoves := by
  intro s
  refine ⟨by decide, exec_unpad_range, fun hl hs => (exec_unpad_of_le hl).trans (removePadding_invalid hs),
    fun p hl hs => ⟨_, (exec_unpad_of_le hl).trans (removePadding_valid hs), ?_, ?_, ?_, fun _ => rfl⟩⟩
  · apply State.ext <;> simp
  · rw [setErrcode_len, setPadcnt_len, setLen_len, toNat_ofNat_len_sub]
  · obtain ⟨-, hp8, -⟩ := stripPadding_bounds hs
    rw [setErrcode_padcnt, toNat_setPadcnt_ofNat _ hp8]

/-! ## PAD then UNPAD -/

/-- The padding of PAD is valid (42_padding_codec.md R115). -/
theorem stripPadding_of_padded {b : Nat → Byte} {len : Nat} (hp : 1 ≤ p) (hp8 : p ≤ 8)
    (htail : ∀ a, len ≤ a → a < len + p → b a = BitVec.ofNat 8 p) : stripPadding b (len + p) = some p := by
  refine stripPadding_eq_some_iff.2 ⟨by omega, hp, hp8, by omega, fun i hi hip => ?_⟩
  rw [htail _ (by omega) (by omega), BitVec.toNat_ofNat, Nat.mod_eq_of_lt (by omega)]

/-- The padded length fits LEN where the sum is below 2^32 (log entry 5). -/
theorem toNat_applyPadding_len (h : s.len.toNat + p < 2 ^ 32) :
    (applyPadding p s).len.toNat = s.len.toNat + p := by
  rw [applyPadding, setLen_len, BitVec.toNat_ofNat, Nat.mod_eq_of_lt h]

/-- Settles O43: the padding that PAD applied is valid, so UNPAD removes it. -/
theorem padThenUnpadRestoresTheBuffer : Obligations.PadThenUnpadRestoresTheBuffer := by
  intro s t u hcap hp hfit hst htu
  obtain ⟨-, -, hmax⟩ := (capOk_iff s.buf.cap).1 hcap
  have hp8 := computePadding_le s.len.toNat s.padfull
  rw [exec_pad_success hfit] at hst
  generalize computePadding s.len.toNat s.padfull = p at *
  obtain rfl := Host.Outcome.next.inj hst
  have hlen : (applyPadding p s).len.toNat = s.len.toNat + p := toNat_applyPadding_len (by omega)
  have hstrip : stripPadding (byteAt (applyPadding p s)) (s.len.toNat + p) = some p :=
    stripPadding_of_padded hp hp8 fun a ha hap => by rw [byteAt_applyPadding, if_pos ⟨ha, hap⟩]
  rw [exec_unpad_of_le (by simpa [hlen] using hfit), removePadding_valid (p := p) ?_] at htu
  · obtain rfl := Host.Outcome.next.inj htu
    refine ⟨rfl, by simp [hlen], ?_, fun a ha => ?_⟩
    · rw [setErrcode_padcnt, toNat_setPadcnt_ofNat _ hp8]
    · simp only [byteAt_setErrcode, byteAt_setPadcnt, byteAt_setLen, byteAt_applyPadding]
      rw [if_neg (by omega)]
  · rw [setErrcode_len, setPadcnt_len, hlen]
    exact hstrip

end Sys2Proof.Machine
end

section
/-!
PROOFS. The statements about the block stream: the commands ENCBUF and DECBUF, that the blocks are independent and
may be taken in any order, and that the two directions undo each other (43_block_stream.md R130 to R135).
-/

namespace Sys2Proof.Machine

variable {s t u : State} {d : Direction} {n : Nat}

/-! ## The stream as a byte function -/

/-- Byte `i` of block `n` of the stream is byte `i` of that block's transform (43_block_stream.md R130). -/
theorem streamByte_block (d : Direction) (k : Words4) (b : Nat → Byte) (n : Nat) {i : Nat} (hi : i < 8) :
    streamByte d k b (8 * n + i) = byteOfBlock (cryptBlock d k (blockOf b n).1 (blockOf b n).2) i := by
  rw [streamByte, show (8 * n + i) / 8 = n by omega, show (8 * n + i) % 8 = i by omega]

theorem blockOf_streamByte (d : Direction) (k : Words4) (b : Nat → Byte) (n : Nat) :
    blockOf (streamByte d k b) n = cryptBlock d k (blockOf b n).1 (blockOf b n).2 :=
  blockOf_eq fun _ hi => streamByte_block d k b n hi

/-- Blocks with the same bytes are the same block. -/
theorem blockOf_congr {b b' : Nat → Byte} {m : Nat} (h : ∀ i < 8, b' (8 * m + i) = b (8 * n + i)) :
    blockOf b' m = blockOf b n :=
  blockOf_eq fun i hi => (h i hi).trans (byteOfBlock_blockOf b n hi).symm

/-- A byte of the stream depends on its own block only, and not on where the block stands (43_block_stream.md R133). -/
theorem streamByte_congr (d : Direction) (k : Words4) {b b' : Nat → Byte} {m : Nat}
    (h : ∀ i < 8, b' (8 * m + i) = b (8 * n + i)) {i : Nat} (hi : i < 8) :
    streamByte d k b' (8 * m + i) = streamByte d k b (8 * n + i) := by
  rw [streamByte_block d k b' m hi, streamByte_block d k b n hi, blockOf_congr h]

/-- Buffers that differ at most in block `j` have streams that differ at most in block `j` (43_block_stream.md R133). -/
theorem streamByte_eq_outside_block (d : Direction) (k : Words4) {b b' : Nat → Byte} {j : Nat}
    (h : ∀ a, a / 8 ≠ j → b' a = b a) {a : Nat} (ha : a / 8 ≠ j) : streamByte d k b' a = streamByte d k b a := by
  rw [← Nat.div_add_mod a 8]
  exact streamByte_congr d k (fun i hi => h _ (by omega)) (Nat.mod_lt a (by decide))

/-- The stream of the inverse direction restores every byte (43_block_stream.md R135). -/
theorem streamByte_inverse (d : Direction) (k : Words4) (b : Nat → Byte) (a : Nat) :
    streamByte d.inverse k (streamByte d k b) a = b a := by
  rw [streamByte, blockOf_streamByte, cryptBlock_inverse]
  exact (byteOfBlock_blockOf b (a / 8) (Nat.mod_lt a (by decide))).trans (by rw [Nat.div_add_mod])

/-- Blocks whose streams have the same bytes have the same bytes (43_block_stream.md R135). -/
theorem eq_of_streamByte_eq {k : Words4} {b b' : Nat → Byte}
    (h : ∀ i < 8, streamByte d k b' (8 * n + i) = streamByte d k b (8 * n + i)) {i : Nat} (hi : i < 8) :
    b' (8 * n + i) = b (8 * n + i) := by
  rw [← streamByte_inverse d k b', ← streamByte_inverse d k b]
  exact streamByte_congr d.inverse k h hi

/-! ## ENCBUF and DECBUF -/

theorem cryptBufCommand_range (hk : s.keyvalid = true) (hr : s.buf.cap < s.len.toNat) :
    cryptBufCommand d s = .next (setErrcode 4 s) := by
  rw [cryptBufCommand, if_neg (by simp [hk]), if_pos (lenOutOfRange_eq_true.2 hr)]
  rfl

theorem cryptBufCommand_notBlockMultiple (hk : s.keyvalid = true) (hr : s.len.toNat ≤ s.buf.cap)
    (hm : s.len.toNat % 8 ≠ 0) : cryptBufCommand d s = .next (setErrcode 6 s) := by
  rw [cryptBufCommand, if_neg (by simp [hk]), if_neg (by rw [lenOutOfRange_eq_true]; omega),
    if_pos (lenNotBlockMultiple_eq_true.2 hm)]
  rfl

theorem cryptBufCommand_success (hk : s.keyvalid = true) (hr : s.len.toNat ≤ s.buf.cap) (hm : s.len.toNat % 8 = 0) :
    cryptBufCommand d s = .next (setErrcode 0 (transformBlocks d (s.len.toNat / 8) s)) := by
  rw [cryptBufCommand, if_neg (by simp [hk]), if_neg (by rw [lenOutOfRange_eq_true]; omega),
    if_neg (by rw [lenNotBlockMultiple_eq_true]; omega)]
  exact succeed_eq_next.2 rfl

/-- The blocks of a buffer of whole blocks are its bytes below LEN (43_block_stream.md R130). -/
theorem byteAt_transformBlocks_len (d : Direction) (hm : s.len.toNat % 8 = 0) (a : Nat) :
    byteAt (transformBlocks d (s.len.toNat / 8) s) a =
      if a < s.len.toNat then streamByte d s.k (byteAt s) a else byteAt s a := by
  rw [byteAt_transformBlocks, Nat.mul_div_cancel' (Nat.dvd_of_mod_eq_zero hm)]

/-- Both stream commands: the three errors, and success with every byte (43_block_stream.md R131, R132). -/
theorem cryptBufCommand_answers (d : Direction) (s : State) :
    (s.keyvalid = false → cryptBufCommand d s = .next { s with errcode := 5 }) ∧
    (s.keyvalid = true → s.buf.cap < s.len.toNat → cryptBufCommand d s = .next { s with errcode := 4 }) ∧
    (s.keyvalid = true → s.len.toNat ≤ s.buf.cap → s.len.toNat % 8 ≠ 0 →
      cryptBufCommand d s = .next { s with errcode := 6 }) ∧
    (s.keyvalid = true → s.len.toNat ≤ s.buf.cap → s.len.toNat % 8 = 0 →
      ∃ t, cryptBufCommand d s = .next t ∧ t = { s with errcode := 0, buf := t.buf, work := t.work } ∧
        t.buf.cap = s.buf.cap ∧
        ∀ a, byteAt t a = if a < s.len.toNat then streamByte d s.k (byteAt s) a else byteAt s a) := by
  refine ⟨cryptBufCommand_noKey, cryptBufCommand_range, cryptBufCommand_notBlockMultiple, fun hk hr hm =>
    ⟨_, cryptBufCommand_success hk hr hm, ?_, ?_, byteAt_transformBlocks_len d hm⟩⟩
  · apply State.ext <;> simp
  · simp

/-- Settles O44: the answers of the encrypting stream command. -/
theorem encbufEncryptsEveryBlock : Obligations.EncbufEncryptsEveryBlock :=
  fun s => ⟨by decide, cryptBufCommand_answers .encrypt s⟩

/-- Settles O45: the answers of the decrypting stream command. -/
theorem decbufDecryptsEveryBlock : Obligations.DecbufDecryptsEveryBlock :=
  fun s => ⟨by decide, cryptBufCommand_answers .decrypt s⟩

/-! ## The blocks are independent -/

/-- What a successful stream command leaves at each byte (43_block_stream.md R130). -/
theorem byteAt_of_cryptBufCommand (h : cryptBufCommand d s = .next t) (hok : t.errcode = 0) (a : Nat) :
    byteAt t a = if a < s.len.toNat then streamByte d s.k (byteAt s) a else byteAt s a := by
  rcases cryptBufCommand_cases h with ⟨-, rfl⟩ | ⟨-, -, rfl⟩ | ⟨-, -, -, rfl⟩ | ⟨-, -, hm, rfl⟩
  · exact absurd hok (by simp)
  · exact absurd hok (by simp)
  · exact absurd hok (by simp)
  · exact byteAt_transformBlocks_len d hm a

/-- Settles O46: a stream byte depends on its own block only, and the inverse stream tells two blocks apart. -/
theorem streamBlocksAreIndependent : Obligations.StreamBlocksAreIndependent := by
  constructor
  · intro s t i j hst hok hi hj heq x hx
    have ht := byteAt_of_cryptBufCommand hst hok
    rw [ht, ht, if_pos (by omega), if_pos (by omega)]
    exact streamByte_congr .encrypt s.k heq hx
  · intro s t s' t' j hk hlen hst hok hst' hok' heq
    have ht := byteAt_of_cryptBufCommand hst hok
    have ht' := byteAt_of_cryptBufCommand hst' hok'
    rw [hk, hlen] at ht'
    constructor
    · intro a ha
      rw [ht, ht', streamByte_eq_outside_block .encrypt s.k heq ha, heq a ha]
    · rintro hj ⟨x, hx, hne⟩
      by_contra! hsame
      refine hne (eq_of_streamByte_eq (d := .encrypt) (k := s.k) (fun i hi => ?_) hx)
      have hi' := hsame i hi
      rwa [ht, ht', if_pos (by omega), if_pos (by omega)] at hi'

/-! ## The order of the blocks -/

/-- Transforming distinct blocks, in the order of the list: every byte of a listed block is the byte of its own
block's transform, and no other byte moves (43_block_stream.md R134). -/
theorem byteAt_foldl_cipherBlock (d : Direction) {order : List Nat} (hnodup : order.Nodup) (s : State) (a : Nat) :
    byteAt (order.foldl (fun t j => cipherBlock d (8 * j) t) s) a =
      if a / 8 ∈ order then streamByte d s.k (byteAt s) a else byteAt s a := by
  induction order generalizing s with
  | nil => simp
  | cons j order ih =>
    obtain ⟨hj, hnodup⟩ := List.nodup_cons.1 hnodup
    rw [List.foldl_cons, ih hnodup, cipherBlock_k]
    by_cases ha : a / 8 = j
    · rw [if_neg (ha ▸ hj), if_pos (by simp [ha]), byteAt_cipherBlock_block, if_pos (by omega), streamByte, ha,
        show a % 8 = a - 8 * j by omega]
    · have hsame : ∀ x, x / 8 ≠ j → byteAt (cipherBlock d (8 * j) s) x = byteAt s x := fun x hx => by
        rw [byteAt_cipherBlock_block, if_neg (by omega)]
      rw [streamByte_eq_outside_block d s.k hsame ha, hsame a ha]
      exact if_congr (by simp [ha]) rfl rfl

/-- Settles O47: both orders list the blocks below `n`, each once. -/
theorem blockOrderIsNotObservable : Obligations.BlockOrderIsNotObservable := by
  intro d n order s hperm a
  rw [byteAt_foldl_cipherBlock d (hperm.nodup_iff.2 List.nodup_range), byteAt_transformBlocks]
  refine if_congr ?_ rfl rfl
  rw [hperm.mem_iff, List.mem_range]
  omega

/-! ## The two directions -/

/-- A stream command that succeeds leaves the key, KEYVALID, LEN and the capacity, so the inverse command succeeds
too, and it restores every byte (43_block_stream.md R135). -/
theorem cryptBufCommand_inverse (hk : s.keyvalid = true) (hr : s.len.toNat ≤ s.buf.cap) (hm : s.len.toNat % 8 = 0)
    (hst : cryptBufCommand d s = .next t) (htu : cryptBufCommand d.inverse t = .next u) :
    u.errcode = 0 ∧ ∀ a, byteAt u a = byteAt s a := by
  rw [cryptBufCommand_success hk hr hm] at hst
  obtain rfl := Host.Outcome.next.inj hst
  rw [cryptBufCommand_success (by simpa using hk) (by simpa using hr) (by simpa using hm)] at htu
  obtain rfl := Host.Outcome.next.inj htu
  have ht := byteAt_transformBlocks_len d hm
  refine ⟨rfl, fun a => ?_⟩
  rw [byteAt_setErrcode, byteAt_transformBlocks_len d.inverse (by simpa using hm)]
  simp only [setErrcode_k, setErrcode_len, transformBlocks_k, transformBlocks_len]
  split
  · next ha =>
    rw [← streamByte_inverse d s.k (byteAt s) a, ← Nat.div_add_mod a 8]
    refine streamByte_congr d.inverse s.k (fun i hi => ?_) (Nat.mod_lt a (by decide))
    rw [byteAt_setErrcode, ht, if_pos (by omega)]
  · next ha => rw [byteAt_setErrcode, ht, if_neg ha]

/-- Settles O48: each direction's command undoes the other's. -/
theorem streamDirectionsAreInverse : Obligations.StreamDirectionsAreInverse := fun _ _ _ hk hr hm =>
  ⟨cryptBufCommand_inverse (d := .encrypt) hk hr hm, cryptBufCommand_inverse (d := .decrypt) hk hr hm⟩

end Sys2Proof.Machine
end

section
/-!
PROOFS. The statements about the pipelines ENCRYPT and DECRYPT and about NOP: their answers, how they are made of
PAD, ENCBUF, DECBUF and UNPAD, the round trip, and the length of the ciphertext (44_pipeline.md R140 to R145).
-/

namespace Sys2Proof.Machine

variable {s t u : State} {d : Direction} {p : Nat}

/-! ## NOP -/

/-- Settles O52: NOP's one answer, and STATUS after a success. -/
theorem nopReportsSuccess : Obligations.NopReportsSuccess := fun s =>
  ⟨by decide, _, execNop_eq, rfl, fun hk => (statusWord_of_success rfl).trans (if_pos hk),
    fun hk => (statusWord_of_success rfl).trans (if_neg (ne_true_of_eq_false hk))⟩

/-! ## ENCRYPT -/

theorem exec_encrypt_range (hk : s.keyvalid = true)
    (hr : s.buf.cap < s.len.toNat + computePadding s.len.toNat s.padfull) :
    exec .encrypt s = .next (setErrcode 4 s) := by
  obtain ⟨t, ht⟩ := exec_completes .encrypt s
  rcases execEncrypt_cases ht with ⟨hk', -⟩ | ⟨-, -, rfl⟩ | ⟨-, hl, -⟩
  · simp [hk] at hk'
  · exact ht
  · omega

theorem exec_encrypt_success (hk : s.keyvalid = true)
    (hfit : s.len.toNat + computePadding s.len.toNat s.padfull ≤ s.buf.cap) :
    exec .encrypt s = .next (setErrcode 0 (setPadcnt (BitVec.ofNat 32 (computePadding s.len.toNat s.padfull))
      (transformBlocks .encrypt ((applyPadding (computePadding s.len.toNat s.padfull) s).len.toNat / 8)
        (applyPadding (computePadding s.len.toNat s.padfull) s)))) := by
  obtain ⟨t, ht⟩ := exec_completes .encrypt s
  rcases execEncrypt_cases ht with ⟨hk', -⟩ | ⟨-, hl, -⟩ | ⟨-, -, rfl⟩
  · simp [hk] at hk'
  · omega
  · rw [ht, blockCount_eq]

/-- A length that fits a buffer of an allowed size fits LEN (00_scope.md R6). -/
theorem lt_two_pow_32_of_le_cap {cap n : Nat} (hcap : Config.capOk cap = true) (hn : n ≤ cap) : n < 2 ^ 32 := by
  obtain ⟨-, -, hmax⟩ := (capOk_iff cap).1 hcap
  omega

/-- The buffer after PAD's padding is the padded plaintext (42_padding_codec.md R111). -/
theorem byteAt_applyPadding_eq_paddedByte (p : Nat) (s : State) :
    byteAt (applyPadding p s) = paddedByte (byteAt s) s.len.toNat p :=
  funext fun a => byteAt_applyPadding p s a

/-- ENCRYPT's work on a buffer padded to whole blocks: below the padded length the encrypted padded plaintext, and no
other byte moves (44_pipeline.md R140). -/
theorem byteAt_transformBlocks_applyPadding (d : Direction) (hlen : (applyPadding p s).len.toNat = s.len.toNat + p)
    (hm : (s.len.toNat + p) % 8 = 0) (a : Nat) :
    byteAt (transformBlocks d ((applyPadding p s).len.toNat / 8) (applyPadding p s)) a =
      if a < s.len.toNat + p then streamByte d s.k (paddedByte (byteAt s) s.len.toNat p) a else byteAt s a := by
  rw [byteAt_transformBlocks_len d (by rw [hlen, hm]), hlen, applyPadding_k, byteAt_applyPadding_eq_paddedByte]
  split
  · rfl
  · next ha => exact if_neg fun h => ha h.2

/-- Settles O50: the two errors, and success with the padding applied and then every block encrypted. -/
theorem encryptPadsAndEncrypts : Obligations.EncryptPadsAndEncrypts := by
  intro s hcap
  refine ⟨by decide, exec_noKey rfl, fun hk hr => exec_encrypt_range hk (by omega),
    fun hk hfit => ⟨_, exec_encrypt_success hk hfit, ?_⟩⟩
  have hm := len_add_computePadding_mod s.len.toNat s.padfull
  have hp8 := computePadding_le s.len.toNat s.padfull
  generalize computePadding s.len.toNat s.padfull = p at *
  have hlen : (applyPadding p s).len.toNat = s.len.toNat + p :=
    toNat_applyPadding_len (lt_two_pow_32_of_le_cap hcap hfit)
  refine ⟨?_, ?_, ?_, ?_, byteAt_transformBlocks_applyPadding .encrypt hlen hm⟩
  · apply State.ext <;> simp
  · simp
  · simp [hlen]
  · rw [setErrcode_padcnt, toNat_setPadcnt_ofNat _ hp8]

/-! ## DECRYPT -/

theorem exec_decrypt_range (hk : s.keyvalid = true) (hr : s.buf.cap < s.len.toNat) :
    exec .decrypt s = .next (setErrcode 4 s) := by
  obtain ⟨t, ht⟩ := exec_completes .decrypt s
  rcases execDecrypt_cases ht with ⟨hk', -⟩ | ⟨-, -, rfl⟩ | ⟨-, hl, -⟩ | ⟨-, hl, -⟩
  · simp [hk] at hk'
  · exact ht
  · omega
  · omega

theorem exec_decrypt_invalidCiphertextSize (hk : s.keyvalid = true) (hr : s.len.toNat ≤ s.buf.cap)
    (hm : s.len.toNat = 0 ∨ s.len.toNat % 8 ≠ 0) : exec .decrypt s = .next (setErrcode 1 s) := by
  obtain ⟨t, ht⟩ := exec_completes .decrypt s
  rcases execDecrypt_cases ht with ⟨hk', -⟩ | ⟨-, hl, -⟩ | ⟨-, -, -, rfl⟩ | ⟨-, -, h0, h8, -⟩
  · simp [hk] at hk'
  · omega
  · exact ht
  · omega

theorem exec_decrypt_blocks (hk : s.keyvalid = true) (hr : s.len.toNat ≤ s.buf.cap) (h0 : s.len.toNat ≠ 0)
    (hm : s.len.toNat % 8 = 0) :
    exec .decrypt s = removePadding (transformBlocks .decrypt (s.len.toNat / 8) s) := by
  obtain ⟨t, ht⟩ := exec_completes .decrypt s
  rcases execDecrypt_cases ht with ⟨hk', -⟩ | ⟨-, hl, -⟩ | ⟨-, -, hsize, -⟩ | ⟨-, -, -, -, hrem⟩
  · simp [hk] at hk'
  · omega
  · omega
  · rw [ht, hrem]

/-- The padding that DECRYPT looks for is that of the decrypted stream (44_pipeline.md R141). -/
theorem stripPadding_transformBlocks (d : Direction) (hm : s.len.toNat % 8 = 0) :
    stripPadding (byteAt (transformBlocks d (s.len.toNat / 8) s)) (transformBlocks d (s.len.toNat / 8) s).len.toNat =
      stripPadding (streamByte d s.k (byteAt s)) s.len.toNat := by
  rw [transformBlocks_len]
  exact stripPadding_congr fun a ha => by rw [byteAt_transformBlocks_len d hm, if_pos ha]

/-- Settles O51: the three errors before the cipher work, and after it the two answers of the padding check. -/
theorem decryptChecksDecryptsAndStrips : Obligations.DecryptChecksDecryptsAndStrips := by
  intro s
  refine ⟨by decide, exec_noKey rfl, exec_decrypt_range, exec_decrypt_invalidCiphertextSize, fun hk hr h0 hm => ?_⟩
  have hstrip := stripPadding_transformBlocks .decrypt hm
  rw [exec_decrypt_blocks hk hr h0 hm]
  cases hs : stripPadding (streamByte .decrypt s.k (byteAt s)) s.len.toNat with
  | none =>
    refine ⟨_, removePadding_invalid (hstrip.trans hs), ?_, transformBlocks_cap _ _ _,
      byteAt_transformBlocks_len .decrypt hm, fun _ => ⟨rfl, transformBlocks_len _ _ _, transformBlocks_padcnt _ _ _⟩,
      nofun⟩
    apply State.ext <;> simp
  | some p =>
    refine ⟨_, removePadding_valid (hstrip.trans hs), ?_, transformBlocks_cap _ _ _,
      byteAt_transformBlocks_len .decrypt hm, nofun, ?_⟩
    · apply State.ext <;> simp
    · rintro _ ⟨⟩
      obtain ⟨-, hp8, -⟩ := stripPadding_bounds hs
      refine ⟨rfl, ?_, ?_⟩
      · rw [setErrcode_len, setPadcnt_len, setLen_len, toNat_ofNat_len_sub, transformBlocks_len]
      · rw [setErrcode_padcnt, toNat_setPadcnt_ofNat _ hp8]

/-! ## The pipelines and their parts -/

theorem setErrcode_setErrcode (c c' : BitVec 8) (s : State) : setErrcode c (setErrcode c' s) = setErrcode c s := (rfl)

/-- UNPAD's check and removal do not read ERRCODE (42_padding_codec.md R114). -/
theorem removePadding_setErrcode (c : BitVec 8) (s : State) : removePadding (setErrcode c s) = removePadding s := by
  cases hs : stripPadding (byteAt s) s.len.toNat with
  | none => rw [removePadding_invalid hs, removePadding_invalid (s := setErrcode c s) hs, setErrcode_setErrcode]
  | some p =>
    rw [removePadding_valid hs, removePadding_valid (s := setErrcode c s) hs]
    rfl

/-- With a key, ENCRYPT is ENCBUF after a PAD that succeeded (44_pipeline.md R143). -/
theorem exec_encrypt_eq_encbuf (hcap : Config.capOk s.buf.cap = true) (hk : s.keyvalid = true)
    (hpad : exec .pad s = .next u) (hok : u.errcode = 0) : exec .encrypt s = exec .encbuf u := by
  rcases execPad_cases hpad with ⟨-, rfl⟩ | ⟨hfit, rfl⟩
  · exact absurd hok (by simp)
  · rw [exec_encrypt_success hk hfit]
    have hm := len_add_computePadding_mod s.len.toNat s.padfull
    generalize computePadding s.len.toNat s.padfull = p at *
    have hlen : (applyPadding p s).len.toNat = s.len.toNat + p :=
      toNat_applyPadding_len (lt_two_pow_32_of_le_cap hcap hfit)
    refine Eq.trans ?_ (cryptBufCommand_success (d := .encrypt) (by simpa using hk)
      (by simpa [hlen] using hfit) (by simpa [hlen] using hm)).symm
    rw [transformBlocks_setErrcode, transformBlocks_setPadcnt, setErrcode_setErrcode, setErrcode_len, setPadcnt_len]

/-- With a key, ENCRYPT fails as PAD does (44_pipeline.md R143). -/
theorem exec_encrypt_eq_pad (hk : s.keyvalid = true) (hpad : exec .pad s = .next u) (herr : u.errcode ≠ 0) :
    exec .encrypt s = exec .pad s := by
  rcases execPad_cases hpad with ⟨hr, -⟩ | ⟨-, rfl⟩
  · rw [exec_encrypt_range hk hr, exec_pad_range hr]
  · exact absurd rfl herr

/-- PAD changes nothing that the key check of a later command reads (10_state.md R17). -/
theorem exec_pad_keyvalid (h : exec .pad s = .next t) : t.keyvalid = s.keyvalid :=
  (exec_dataFrame (i := .pad) nofun nofun h).keyvalid

/-- Where the size checks pass, DECRYPT is UNPAD after DECBUF (44_pipeline.md R143). -/
theorem exec_decrypt_eq_unpad (hk : s.keyvalid = true) (hr : s.len.toNat ≤ s.buf.cap) (h0 : s.len.toNat ≠ 0)
    (hm : s.len.toNat % 8 = 0) (hdec : exec .decbuf s = .next u) : exec .decrypt s = exec .unpad u := by
  obtain rfl := Host.Outcome.next.inj ((cryptBufCommand_success hk hr hm).symm.trans hdec)
  rw [exec_decrypt_blocks hk hr h0 hm, exec_unpad_of_le (by simpa using hr), removePadding_setErrcode]

/-- At LEN 0 DECBUF succeeds and UNPAD finds no padding (44_pipeline.md R143). -/
theorem decbuf_unpad_of_len_zero (hk : s.keyvalid = true) (h0 : s.len.toNat = 0) (hdec : exec .decbuf s = .next u)
    (hunpad : exec .unpad u = .next t) : u.errcode = 0 ∧ t.errcode = 2 := by
  obtain rfl := Host.Outcome.next.inj ((cryptBufCommand_success hk (by omega) (by omega)).symm.trans hdec)
  rw [exec_unpad_of_le (by simp [h0]), removePadding_invalid (stripPadding_eq_none_iff.2 (.inl (by simp [h0])))]
    at hunpad
  obtain rfl := Host.Outcome.next.inj hunpad
  exact ⟨rfl, rfl⟩

/-- Settles O53: the two compositions, and the three places where the failures differ. -/
theorem pipelinesComposeTheirParts : Obligations.PipelinesComposeTheirParts := by
  intro s hcap
  refine ⟨fun hk u hpad => ⟨exec_encrypt_eq_encbuf hcap hk hpad, exec_encrypt_eq_pad hk hpad⟩,
    fun hk => ⟨exec_noKey rfl hk, fun u hpad => exec_noKey rfl ((exec_pad_keyvalid hpad).trans hk)⟩,
    fun hk hr h0 hm u => exec_decrypt_eq_unpad hk hr h0 hm,
    fun hk h0 => ⟨exec_decrypt_invalidCiphertextSize hk (by omega) (.inl h0),
      fun u v => decbuf_unpad_of_len_zero hk h0⟩,
    fun hk hr hm => ⟨exec_decrypt_invalidCiphertextSize hk hr (.inr hm), cryptBufCommand_notBlockMultiple hk hr hm⟩⟩

/-! ## The round trip -/

/-- Whole blocks of a stream, taken through the inverse direction, come back, whatever stands after them
(43_block_stream.md R135). -/
theorem streamByte_inverse_of_eq {k : Words4} {b c : Nat → Byte} {len : Nat} (hm : len % 8 = 0)
    (h : ∀ a, a < len → c a = streamByte d k b a) {a : Nat} (ha : a < len) : streamByte d.inverse k c a = b a := by
  rw [← streamByte_inverse d k b a, ← Nat.div_add_mod a 8]
  exact streamByte_congr d.inverse k (fun i hi => h _ (by omega)) (Nat.mod_lt a (by decide))

/-- The bytes of the plaintext are below its padding (42_padding_codec.md R111). -/
theorem paddedByte_of_lt {b : Nat → Byte} {len a : Nat} (ha : a < len) : paddedByte b len p a = b a :=
  if_neg (by omega)

theorem stripPadding_paddedByte (b : Nat → Byte) (len : Nat) (hp : 1 ≤ p) (hp8 : p ≤ 8) :
    stripPadding (paddedByte b len p) (len + p) = some p :=
  stripPadding_of_padded hp hp8 fun _ ha hap => if_pos ⟨ha, hap⟩

/-- DECRYPT of a buffer that holds an encrypted padded plaintext restores it, if a pad byte was added
(44_pipeline.md R144). -/
theorem decrypt_of_encrypted_padded {b : Nat → Byte} {len : Nat} (hk : s.keyvalid = true) (hr : len + p ≤ s.buf.cap)
    (hlen : s.len.toNat = len + p) (hm : (len + p) % 8 = 0) (hp : 1 ≤ p) (hp8 : p ≤ 8)
    (hbytes : ∀ a, a < len + p → byteAt s a = streamByte .encrypt s.k (paddedByte b len p) a)
    (h : exec .decrypt s = .next t) :
    t.errcode = 0 ∧ t.len.toNat = len ∧ t.padcnt.toNat = p ∧ ∀ a, a < len → byteAt t a = b a := by
  obtain ⟨-, -, -, -, hblocks⟩ := decryptChecksDecryptsAndStrips s
  obtain ⟨t', ht', -, -, hbyte, -, hsome⟩ := hblocks hk (by omega) (by omega) (by omega)
  obtain rfl := Host.Outcome.next.inj (h.symm.trans ht')
  have hplain : ∀ a, a < len + p → streamByte .decrypt s.k (byteAt s) a = paddedByte b len p a :=
    fun a ha => streamByte_inverse_of_eq (d := .encrypt) hm hbytes ha
  obtain ⟨herr, htlen, hpad⟩ := hsome p (by
    rw [hlen, stripPadding_congr hplain, stripPadding_paddedByte b len hp hp8])
  refine ⟨herr, by omega, hpad, fun a ha => ?_⟩
  rw [hbyte, if_pos (by omega), hplain a (by omega), paddedByte_of_lt ha]

/-- A DECRYPT that succeeds removes at least one byte (44_pipeline.md R141). -/
theorem decrypt_shortens (h : exec .decrypt s = .next t) : t.errcode ≠ 0 ∨ t.len ≠ s.len := by
  rcases execDecrypt_cases h with ⟨-, rfl⟩ | ⟨-, -, rfl⟩ | ⟨-, -, -, rfl⟩ | ⟨-, -, -, -, hrem⟩
  · exact .inl (by simp)
  · exact .inl (by simp)
  · exact .inl (by simp)
  · rcases removePadding_cases hrem with ⟨-, rfl⟩ | ⟨p, hp, rfl⟩
    · exact .inl (by simp)
    · obtain ⟨h1, -, hle⟩ := stripPadding_bounds hp
      refine .inr fun hlen => ?_
      have hnat := congrArg BitVec.toNat hlen
      rw [setErrcode_len, setPadcnt_len, setLen_len, toNat_ofNat_len_sub, transformBlocks_len] at hnat
      rw [transformBlocks_len] at hle
      omega

/-- No pad byte is added exactly in the reference mode on whole blocks (42_padding_codec.md R110). -/
theorem computePadding_eq_zero_iff {len : Nat} {padfull : Bool} :
    computePadding len padfull = 0 ↔ len % 8 = 0 ∧ padfull = false := by
  rw [computePadding_eq]
  split
  · next h => simp [h]
  · next h => exact iff_of_false (by omega) h

/-- Settles O54: DECRYPT finds the padding ENCRYPT wrote; where none was written, a success would shorten LEN. -/
theorem encryptThenDecryptRoundTrip : Obligations.EncryptThenDecryptRoundTrip := by
  intro s t u padfull hcap hk hfit hst htu
  obtain ⟨-, -, -, hsuccess⟩ := encryptPadsAndEncrypts s hcap
  obtain ⟨t', ht', hframe, hcapt, hlen, -, hbytes⟩ := hsuccess hk hfit
  obtain rfl := Host.Outcome.next.inj (hst.symm.trans ht')
  have hkey : t.k = s.k := by rw [hframe]
  have hkv : t.keyvalid = true := by rw [hframe, hk]
  refine ⟨by rw [hframe], fun hadded => ?_, fun hfull hm => ?_⟩
  · have hp : 1 ≤ computePadding s.len.toNat s.padfull := by
      refine Nat.pos_of_ne_zero fun h0 => ?_
      obtain ⟨hm, hfull⟩ := computePadding_eq_zero_iff.1 h0
      simp [hm, hfull] at hadded
    have hcipher : ∀ a, a < s.len.toNat + computePadding s.len.toNat s.padfull → byteAt t a = streamByte .encrypt t.k
        (paddedByte (byteAt s) s.len.toNat (computePadding s.len.toNat s.padfull)) a :=
      fun a ha => by rw [hbytes, if_pos ha, hkey]
    obtain ⟨herr, hulen, hpadcnt, hback⟩ := decrypt_of_encrypted_padded (s := { t with padfull := padfull }) hkv
      (hfit.trans hcapt.ge) hlen (len_add_computePadding_mod ..) hp (computePadding_le ..) hcipher htu
    exact ⟨herr, BitVec.eq_of_toNat_eq hulen, hpadcnt, hback⟩
  · have hsame : t.len = s.len := BitVec.eq_of_toNat_eq (by rw [hlen, computePadding_eq_zero_iff.2 ⟨hm, hfull⟩]; rfl)
    rw [← hsame]
    exact decrypt_shortens (s := { t with padfull := padfull }) htu

/-! ## The ciphertext -/

/-- ENCRYPT succeeds only with a key and with room for the padding (44_pipeline.md R140). -/
theorem fits_of_encrypt_success (h : exec .encrypt s = .next t) (hok : t.errcode = 0) :
    s.keyvalid = true ∧ s.len.toNat + computePadding s.len.toNat s.padfull ≤ s.buf.cap := by
  rcases execEncrypt_cases h with ⟨-, rfl⟩ | ⟨-, -, rfl⟩ | ⟨hk, hfit, -⟩
  · exact absurd hok (by simp)
  · exact absurd hok (by simp)
  · exact ⟨hk, hfit⟩

/-- The padded length in the reference mode: up to whole blocks (44_pipeline.md R145). -/
theorem len_add_computePadding_false (len : Nat) : len + computePadding len false = (len + 7) / 8 * 8 := by
  simp only [computePadding_eq, and_true]
  split_ifs <;> omega

/-- The padded length with PADFULL: to the next whole block (44_pipeline.md R145). -/
theorem len_add_computePadding_true (len : Nat) : len + computePadding len true = len / 8 * 8 + 8 := by
  rw [computePadding_eq, if_neg (by simp)]
  omega

/-- Settles O55: LEN is the padded length, which each mode rounds up in its way. -/
theorem ciphertextLength : Obligations.CiphertextLength := by
  intro s t hcap h hok
  obtain ⟨hk, hfit⟩ := fits_of_encrypt_success h hok
  obtain ⟨-, -, -, hsuccess⟩ := encryptPadsAndEncrypts s hcap
  obtain ⟨t', ht', -, -, hlen, -, hbytes⟩ := hsuccess hk hfit
  obtain rfl := Host.Outcome.next.inj (h.symm.trans ht')
  refine ⟨fun hfull => ?_, fun hfull => ?_, fun a ha => by rw [hbytes, if_pos (by omega)]⟩
  · rw [hfull, len_add_computePadding_false] at hlen
    exact ⟨hlen, fun hm => BitVec.eq_of_toNat_eq (by omega)⟩
  · rw [hfull, len_add_computePadding_true] at hlen
    exact ⟨hlen, fun hm => by omega⟩

end Sys2Proof.Machine
end

section
/-!
PROOFS. The statements about how a command ends: the code it reports, what a failure leaves behind, and that a
success of DECRYPT does not authenticate the key (60_exceptions.md R160 to R163, R166, R169).
-/

namespace Sys2Proof.Machine

variable {s t : State} {i : Instr} {d : Direction} {n : Nat}

/-! ## The priority list, command by command (60_exceptions.md R162) -/

@[simp] theorem firstCode_nop (s : State) : firstCode .nop s = 0 := by
  simp [firstCode, Instr.needsKey, Instr.usesLen]

@[simp] theorem firstCode_keyload (s : State) : firstCode .keyload s = 0 := by
  simp [firstCode, Instr.needsKey, Instr.usesLen]

@[simp] theorem firstCode_keyclr (s : State) : firstCode .keyclr s = 0 := by
  simp [firstCode, Instr.needsKey, Instr.usesLen]

theorem firstCode_encblk (n : Nat) (s : State) : firstCode (.encblk n) s =
    if s.keyvalid = false then 5 else if s.buf.cap < 8 * n + 8 then 4 else 0 := by
  simp [firstCode, Instr.needsKey, Instr.usesLen]

theorem firstCode_decblk (n : Nat) (s : State) : firstCode (.decblk n) s = firstCode (.encblk n) s := by
  simp [firstCode, Instr.needsKey, Instr.usesLen]

/-- Both Range checks of PAD give one code, so they are one check (42_padding_codec.md R112). -/
theorem firstCode_pad (s : State) : firstCode .pad s =
    if s.buf.cap < s.len.toNat ∨ s.buf.cap < s.len.toNat + computePadding s.len.toNat s.padfull then 4 else 0 := by
  simp [firstCode, Instr.needsKey, Instr.usesLen, ite_or]

theorem firstCode_unpad (s : State) : firstCode .unpad s =
    if s.buf.cap < s.len.toNat then 4 else if stripPadding (byteAt s) s.len.toNat = none then 2 else 0 := by
  simp [firstCode, Instr.needsKey, Instr.usesLen]

theorem firstCode_encbuf (s : State) : firstCode .encbuf s =
    if s.keyvalid = false then 5 else if s.buf.cap < s.len.toNat then 4
      else if s.len.toNat % 8 ≠ 0 then 6 else 0 := by
  simp [firstCode, Instr.needsKey, Instr.usesLen]

theorem firstCode_decbuf (s : State) : firstCode .decbuf s = firstCode .encbuf s := by
  simp [firstCode, Instr.needsKey, Instr.usesLen]

/-- ENCRYPT needs the key and then fails as PAD does (44_pipeline.md R143). -/
theorem firstCode_encrypt (s : State) : firstCode .encrypt s =
    if s.keyvalid = false then 5 else firstCode .pad s := by
  simp [firstCode, Instr.needsKey, Instr.usesLen]

theorem firstCode_decrypt (s : State) : firstCode .decrypt s =
    if s.keyvalid = false then 5 else if s.buf.cap < s.len.toNat then 4
      else if s.len.toNat = 0 ∨ s.len.toNat % 8 ≠ 0 then 1
      else if stripPadding (streamByte .decrypt s.k (byteAt s)) s.len.toNat = none then 2 else 0 := by
  simp [firstCode, Instr.needsKey, Instr.usesLen]

/-- The codes of the priority list are those of the command's row (60_exceptions.md R160). -/
theorem firstCode_mem_resultCodes (i : Instr) (s : State) : firstCode i s ∈ Instr.resultCodes i := by
  cases i with
  | nop | keyload | keyclr => simp [Instr.resultCodes]
  | encblk n | decblk n =>
    simp only [firstCode_decblk, firstCode_encblk, Instr.resultCodes]; split_ifs <;> decide
  | pad => simp only [firstCode_pad, Instr.resultCodes]; split_ifs <;> decide
  | unpad => simp only [firstCode_unpad, Instr.resultCodes]; split_ifs <;> decide
  | encbuf | decbuf => simp only [firstCode_decbuf, firstCode_encbuf, Instr.resultCodes]; split_ifs <;> decide
  | encrypt => simp only [firstCode_encrypt, firstCode_pad, Instr.resultCodes]; split_ifs <;> decide
  | decrypt => simp only [firstCode_decrypt, Instr.resultCodes]; split_ifs <;> decide

/-! ## The code of a command and what its failure leaves -/

/-- A command on `s` ended in `t` with the code `c`, and if it failed it changed ERRCODE only
(60_exceptions.md R161, R163). -/
structure EndsWith (c : BitVec 8) (s t : State) : Prop where
  errcode : t.errcode = c
  failed : c ≠ 0 → t = setErrcode c s

namespace EndsWith

theorem raised (c : BitVec 8) (s : State) : EndsWith c s (setErrcode c s) := ⟨rfl, fun _ => rfl⟩

theorem succeeded (s u : State) : EndsWith 0 s (setErrcode 0 u) := ⟨rfl, fun h => absurd rfl h⟩

theorem cryptBlockCommand (h : cryptBlockCommand d n s = .next t) : EndsWith (firstCode (.encblk n) s) s t := by
  rw [firstCode_encblk]
  rcases cryptBlockCommand_cases h with ⟨hk, rfl⟩ | ⟨hk, hr, rfl⟩ | ⟨hk, hr, rfl⟩
  · rw [if_pos hk]; exact raised 5 s
  · rw [if_neg (by simp [hk]), if_pos hr]; exact raised 4 s
  · rw [if_neg (by simp [hk]), if_neg (by omega)]; exact succeeded s _

theorem cryptBufCommand (h : cryptBufCommand d s = .next t) : EndsWith (firstCode .encbuf s) s t := by
  rw [firstCode_encbuf]
  rcases cryptBufCommand_cases h with ⟨hk, rfl⟩ | ⟨hk, hr, rfl⟩ | ⟨hk, hr, hm, rfl⟩ | ⟨hk, hr, hm, rfl⟩
  · rw [if_pos hk]; exact raised 5 s
  · rw [if_neg (by simp [hk]), if_pos hr]; exact raised 4 s
  · rw [if_neg (by simp [hk]), if_neg (by omega), if_pos hm]; exact raised 6 s
  · rw [if_neg (by simp [hk]), if_neg (by omega), if_neg (by omega)]; exact succeeded s _

theorem removePadding (h : removePadding s = .next t) :
    EndsWith (if stripPadding (byteAt s) s.len.toNat = none then 2 else 0) s t := by
  rcases removePadding_cases h with ⟨hs, rfl⟩ | ⟨p, hs, rfl⟩
  · rw [if_pos hs]; exact raised 2 s
  · rw [if_neg (by simp [hs])]; exact succeeded s _

theorem execPad (h : execPad s = .next t) : EndsWith (firstCode .pad s) s t := by
  rw [firstCode_pad]
  rcases execPad_cases h with ⟨hr, rfl⟩ | ⟨hr, rfl⟩
  · rw [if_pos (.inr hr)]; exact raised 4 s
  · rw [if_neg (by omega)]; exact succeeded s _

theorem execUnpad (h : execUnpad s = .next t) : EndsWith (firstCode .unpad s) s t := by
  rw [firstCode_unpad]
  rcases execUnpad_cases h with ⟨hr, rfl⟩ | ⟨hr, hrem⟩
  · rw [if_pos hr]; exact raised 4 s
  · rw [if_neg (by omega)]; exact removePadding hrem

theorem execEncrypt (h : execEncrypt s = .next t) : EndsWith (firstCode .encrypt s) s t := by
  rw [firstCode_encrypt, firstCode_pad]
  rcases execEncrypt_cases h with ⟨hk, rfl⟩ | ⟨hk, hr, rfl⟩ | ⟨hk, hr, rfl⟩
  · rw [if_pos hk]; exact raised 5 s
  · rw [if_neg (by simp [hk]), if_pos (.inr hr)]; exact raised 4 s
  · rw [if_neg (by simp [hk]), if_neg (by omega)]; exact succeeded s _

end EndsWith

/-- Every command but DECRYPT ends with its first code and, if it fails, changes ERRCODE only. -/
theorem exec_endsWith (hi : i ≠ .decrypt) (h : exec i s = .next t) : EndsWith (firstCode i s) s t := by
  cases i with
  | nop => obtain rfl := succeed_eq_next.1 h; rw [firstCode_nop]; exact .succeeded s s
  | keyload => obtain rfl := succeed_eq_next.1 h; rw [firstCode_keyload]; exact .succeeded s _
  | encblk n => exact .cryptBlockCommand h
  | decblk n => rw [firstCode_decblk]; exact .cryptBlockCommand h
  | pad => exact .execPad h
  | unpad => exact .execUnpad h
  | encbuf => exact .cryptBufCommand h
  | decbuf => rw [firstCode_decbuf]; exact .cryptBufCommand h
  | encrypt => exact .execEncrypt h
  | decrypt => exact absurd rfl hi
  | keyclr => obtain rfl := succeed_eq_next.1 h; rw [firstCode_keyclr]; exact .succeeded s _

/-- DECRYPT ends as every command does, but where it finds no valid padding after the cipher work: then the blocks
stay decrypted (60_exceptions.md R163). -/
theorem exec_decrypt_ends (h : exec .decrypt s = .next t) :
    (firstCode .decrypt s ≠ 2 ∧ EndsWith (firstCode .decrypt s) s t) ∨
    (firstCode .decrypt s = 2 ∧ s.keyvalid = true ∧ s.len.toNat ≤ s.buf.cap ∧ s.len.toNat % 8 = 0 ∧
      t = setErrcode 2 (transformBlocks .decrypt (s.len.toNat / 8) s)) := by
  rw [firstCode_decrypt]
  rcases execDecrypt_cases h with ⟨hk, rfl⟩ | ⟨hk, hr, rfl⟩ | ⟨hk, hr, hm, rfl⟩ | ⟨hk, hr, h0, hm, hrem⟩
  · rw [if_pos hk]; exact .inl ⟨by decide, .raised 5 s⟩
  · rw [if_neg (by simp [hk]), if_pos hr]; exact .inl ⟨by decide, .raised 4 s⟩
  · rw [if_neg (by simp [hk]), if_neg (by omega), if_pos hm]; exact .inl ⟨by decide, .raised 1 s⟩
  · rw [if_neg (by simp [hk]), if_neg (by omega), if_neg (by omega), ← stripPadding_transformBlocks .decrypt hm]
    rcases removePadding_cases hrem with ⟨hs, rfl⟩ | ⟨p, hs, rfl⟩
    · rw [if_pos hs]; exact .inr ⟨rfl, hk, hr, hm, rfl⟩
    · rw [if_neg (by rw [hs]; nofun)]; exact .inl ⟨by decide, .succeeded s _⟩

theorem exec_errcode (h : exec i s = .next t) : t.errcode = firstCode i s := by
  by_cases hi : i = .decrypt
  · subst hi
    rcases exec_decrypt_ends h with ⟨-, hend⟩ | ⟨hcode, -, -, -, rfl⟩
    · exact hend.errcode
    · exact hcode.symm
  · exact (exec_endsWith hi h).errcode

/-- Settles O19: every command completes, with the first code of the priority list, which is one of its row. -/
theorem everyCommandCompletesWithAListedCode : Obligations.EveryCommandCompletesWithAListedCode := by
  intro i s
  obtain ⟨t, ht⟩ := exec_completes i s
  exact ⟨t, ht, exec_errcode ht ▸ firstCode_mem_resultCodes i s⟩

/-- Settles O20: an illegal word ends with its own code, and every command with the first of its list. -/
theorem theFirstApplicableErrorIsReported : Obligations.TheFirstApplicableErrorIsReported := by
  intro w s
  obtain ⟨t, ht⟩ := runCommand_completes w s
  refine ⟨t, ht, ?_⟩
  rcases runCommand_cases ht with ⟨i, hw, hi⟩ | ⟨why, hw, rfl⟩
  · rw [hw]; exact exec_errcode hi
  · rw [hw]; rfl

/-! ## After a failure -/

/-- The stream commands do not read ERRCODE (43_block_stream.md R131, R132). -/
theorem cryptBufCommand_setErrcode (d : Direction) (c : BitVec 8) (s : State) :
    cryptBufCommand d (setErrcode c s) = cryptBufCommand d s := by
  have hrange : lenOutOfRange 0 (setErrcode c s) = lenOutOfRange 0 s := (rfl)
  have hblocks : lenNotBlockMultiple (setErrcode c s) = lenNotBlockMultiple s := (rfl)
  simp only [cryptBufCommand, hrange, hblocks, setErrcode_keyvalid, blockCount_eq, setErrcode_len,
    transformBlocks_setErrcode, raise, succeed, setErrcode_setErrcode]

/-- A failed command changes ERRCODE only, but for DECRYPT ending in `InvalidPadding` (60_exceptions.md R163). -/
theorem exec_failed (hne : ¬(i = .decrypt ∧ t.errcode = 2)) (h : exec i s = .next t) (herr : t.errcode ≠ 0) :
    t = setErrcode t.errcode s := by
  have hcode := exec_errcode h
  by_cases hi : i = .decrypt
  · subst hi
    rcases exec_decrypt_ends h with ⟨-, hend⟩ | ⟨h2, -⟩
    · rw [hcode] at herr ⊢; exact hend.failed herr
    · exact absurd ⟨rfl, hcode.trans h2⟩ hne
  · rw [hcode] at herr ⊢; exact (exec_endsWith hi h).failed herr

/-- From a DECRYPT that left its blocks decrypted ENCBUF leads back to the ciphertext (60_exceptions.md R163). -/
theorem encbuf_restores_ciphertext (hk : s.keyvalid = true) (hr : s.len.toNat ≤ s.buf.cap) (hm : s.len.toNat % 8 = 0)
    (c : BitVec 8) : ∃ u, exec .encbuf (setErrcode c (transformBlocks .decrypt (s.len.toNat / 8) s)) = .next u ∧
      u.errcode = 0 ∧ ∀ a, byteAt u a = byteAt s a := by
  obtain ⟨u, hu⟩ := exec_completes .encbuf (setErrcode c (transformBlocks .decrypt (s.len.toNat / 8) s))
  refine ⟨u, hu, cryptBufCommand_inverse (d := .decrypt) hk hr hm (cryptBufCommand_success hk hr hm) ?_⟩
  rw [cryptBufCommand_setErrcode, ← cryptBufCommand_setErrcode _ c]
  exact hu

/-- Settles O21: a failure changes ERRCODE only, and DECRYPT without valid padding leaves its blocks decrypted. -/
theorem failedCommandChangesOnlyErrcode : Obligations.FailedCommandChangesOnlyErrcode := by
  intro w s t h herr
  rcases runCommand_cases h with ⟨i, hw, hi⟩ | ⟨why, hw, rfl⟩
  · rw [hw]
    refine ⟨fun hne => exec_failed (by simpa using hne) hi herr, fun hdec h2 => ?_⟩
    obtain rfl := Decoded.command.inj hdec
    rcases exec_decrypt_ends hi with ⟨hne, hend⟩ | ⟨-, hk, hr, hm, rfl⟩
    · exact absurd (hend.errcode.symm.trans h2) hne
    · refine ⟨?_, transformBlocks_cap _ _ _, byteAt_transformBlocks_len .decrypt hm,
        encbuf_restores_ciphertext hk hr hm 2⟩
      apply State.ext <;> simp
  · exact ⟨fun _ => rfl, fun hdec => by simp [hw] at hdec⟩

/-! ## A wrong key accepted -/

/-- The bytes `"hello"` and the key `"abc"` (95_test_vectors.md V-E1), every other part as after a reset. -/
def helloState : State :=
  { State.reset with
    k := ⟨0x00636261, 0, 0, 0⟩
    keyvalid := true
    len := 5
    buf := { cap := 64, draw := 0, cells := [(0, 0x68), (1, 0x65), (2, 0x6C), (3, 0x6C), (4, 0x6F)] } }

/-- What ENCRYPT leaves of `helloState`: one block, three bytes of it padding (95_test_vectors.md V-E1). -/
def helloEncrypted : State := setErrcode 0 (setPadcnt 3 (transformBlocks .encrypt 1 (applyPadding 3 helloState)))

/-- The ciphertext under the key `"k203"` (95_test_vectors.md V-E12). -/
def wrongKeyState : State := { helloEncrypted with k := ⟨0x3330326B, 0, 0, 0⟩ }

theorem exec_encrypt_helloState : exec .encrypt helloState = .next helloEncrypted :=
  exec_encrypt_success rfl (by decide)

set_option maxRecDepth 100000 in
/-- Under the wrong key the block ends in `01`, which is valid padding (60_exceptions.md R166). -/
theorem stripPadding_wrongKeyState :
    stripPadding (byteAt (transformBlocks .decrypt 1 wrongKeyState)) 8 = some 1 := by decide

set_option maxRecDepth 100000 in
/-- Under the wrong key the block starts with `40` (95_test_vectors.md V-E12). -/
theorem byteAt_wrongKeyState : byteAt (transformBlocks .decrypt 1 wrongKeyState) 0 = 0x40 := by decide

theorem wrongKeyState_len : wrongKeyState.len = 8 := by
  simp [wrongKeyState, helloEncrypted, applyPadding_len, helloState]

theorem exec_decrypt_wrongKeyState : exec .decrypt wrongKeyState =
    .next (setErrcode 0 (setPadcnt 1 (setLen 7 (transformBlocks .decrypt 1 wrongKeyState)))) := by
  have hlen : wrongKeyState.len.toNat = 8 := congrArg BitVec.toNat wrongKeyState_len
  have hcap : wrongKeyState.buf.cap = 64 := by simp [wrongKeyState, helloEncrypted, helloState]
  rw [exec_decrypt_blocks (by simp [wrongKeyState, helloEncrypted, helloState]) (by omega) (by omega) (by omega), hlen,
    removePadding_valid (p := 1) (by rw [transformBlocks_len, hlen]; exact stripPadding_wrongKeyState),
    transformBlocks_len, hlen]
  rfl

/-- Settles O57: the vectors V-E1 and V-E12, in which `"hello"` comes back as seven other bytes. -/
theorem wrongKeyCanBeAccepted : Obligations.WrongKeyCanBeAccepted := by
  refine ⟨helloState, helloEncrypted, _, _, rfl, ?_, exec_encrypt_helloState, rfl, exec_decrypt_wrongKeyState, rfl,
    ?_, ?_⟩
  · simp [helloState]
  · simp [helloState]
  · rw [byteAt_setErrcode, byteAt_setPadcnt, byteAt_setLen, byteAt_wrongKeyState]
    decide

end Sys2Proof.Machine
end

section
/-!
PROOFS. The statements about the reset event and the hazards: what a reset leaves, a block-aligned chunk on its own,
and the reference mode on a plaintext of whole blocks (70_reset_and_hazards.md R180, R181, R184, R189).
-/

namespace Sys2Proof.Machine

variable {s t u s' u' : State} {d : Direction}

/-! ## The reset event -/

theorem step_reset {rest : List HostEvent} (h : s.script = .reset :: rest) :
    step s = .next (resetEngine { s with script := rest }) :=
  step_cons h

/-- Settles O12: the reset state's registers, with the capacity and the host's two lists kept. -/
theorem resetEventGivesTheResetValues : Obligations.ResetEventGivesTheResetValues := by
  intro s rest h
  have hstatus : statusWord (resetEngine { s with script := rest }) = 0 := statusWord_of_success rfl
  exact ⟨_, step_reset h, rfl, rfl, rfl, rfl, rfl, rfl, rfl, rfl, rfl, hstatus, rfl, rfl⟩

/-! ## A chunk on its own -/

/-- A stream command succeeds only on whole blocks (43_block_stream.md R131, R132). -/
theorem len_mod_of_cryptBufCommand (h : cryptBufCommand d s = .next t) (hok : t.errcode = 0) : s.len.toNat % 8 = 0 := by
  rcases cryptBufCommand_cases h with ⟨-, rfl⟩ | ⟨-, -, rfl⟩ | ⟨-, -, -, rfl⟩ | ⟨-, -, hm, -⟩
  · exact absurd hok (by simp)
  · exact absurd hok (by simp)
  · exact absurd hok (by simp)
  · exact hm

/-- The stream of whole blocks does not depend on where they stand (40_block_transform.md R90). -/
theorem streamByte_chunk (d : Direction) (k : Words4) {b c : Nat → Byte} {o len : Nat} (ho : o % 8 = 0)
    (hm : len % 8 = 0) (h : ∀ a, a < len → c a = b (o + a)) {a : Nat} (ha : a < len) :
    streamByte d k c a = streamByte d k b (o + a) := by
  have hpos : 8 * ((o + a) / 8) + a % 8 = o + a := by omega
  have hblock : ∀ i < 8, c (8 * (a / 8) + i) = b (8 * ((o + a) / 8) + i) := fun i hi => by
    rw [h _ (by omega)]
    congr 1
    omega
  have hstream := streamByte_congr d k hblock (Nat.mod_lt a (by decide))
  rwa [Nat.div_add_mod, hpos] at hstream

/-- One stream command on a chunk and on the buffer the chunk is cut from (70_reset_and_hazards.md R189). -/
theorem cryptBufCommand_chunk {o : Nat} (hk : u.k = s.k) (hfit : o + u.len.toNat ≤ s.len.toNat) (ho : o % 8 = 0)
    (hchunk : ∀ a, a < u.len.toNat → byteAt u a = byteAt s (o + a)) (hs : cryptBufCommand d s = .next s')
    (hsok : s'.errcode = 0) (hu : cryptBufCommand d u = .next u') (huok : u'.errcode = 0) {a : Nat}
    (ha : a < u.len.toNat) : byteAt u' a = byteAt s' (o + a) := by
  rw [byteAt_of_cryptBufCommand hu huok, if_pos ha, byteAt_of_cryptBufCommand hs hsok, if_pos (by omega), hk]
  exact streamByte_chunk d s.k ho (len_mod_of_cryptBufCommand hu huok) hchunk ha

/-- Settles O49: both directions are the one stream command. -/
theorem chunkedStreamEqualsTheWhole : Obligations.ChunkedStreamEqualsTheWhole :=
  fun _ _ _ _ _ hk hfit ho hchunk =>
    ⟨fun hs hsok hu huok _ => cryptBufCommand_chunk (d := .encrypt) hk hfit ho hchunk hs hsok hu huok,
      fun hs hsok hu huok _ => cryptBufCommand_chunk (d := .decrypt) hk hfit ho hchunk hs hsok hu huok⟩

/-! ## The padding boundary -/

theorem paddedByte_zero (b : Nat → Byte) (len : Nat) : paddedByte b len 0 = b :=
  funext fun _ => if_neg (by omega)

/-- In the reference mode ENCRYPT of whole blocks adds no padding: it is the stream alone, with PADCNT 0
(42_padding_codec.md R110, 44_pipeline.md R140). -/
theorem encrypt_of_whole_blocks (hcap : Config.capOk s.buf.cap = true) (hk : s.keyvalid = true)
    (hfull : s.padfull = false) (hr : s.len.toNat ≤ s.buf.cap) (hm : s.len.toNat % 8 = 0)
    (h : exec .encrypt s = .next t) :
    t = { s with errcode := 0, buf := t.buf, work := t.work, padcnt := 0 } ∧ t.buf.cap = s.buf.cap ∧
      ∀ a, byteAt t a = if a < s.len.toNat then streamByte .encrypt s.k (byteAt s) a else byteAt s a := by
  have hp : computePadding s.len.toNat s.padfull = 0 := computePadding_eq_zero_iff.2 ⟨hm, hfull⟩
  obtain ⟨-, -, -, hsuccess⟩ := encryptPadsAndEncrypts s hcap
  rw [hp, Nat.add_zero, paddedByte_zero] at hsuccess
  obtain ⟨t', ht', hframe, htcap, hlen, hpadcnt, hbytes⟩ := hsuccess hk hr
  obtain rfl := Host.Outcome.next.inj (h.symm.trans ht')
  have hlen' : t.len = s.len := BitVec.eq_of_toNat_eq hlen
  have hpadcnt' : t.padcnt = 0 := BitVec.eq_of_toNat_eq hpadcnt
  rw [hlen', hpadcnt'] at hframe
  exact ⟨hframe, htcap, hbytes⟩

/-- DECRYPT of encrypted whole blocks leaves them in BUF, and answers as the padding check of them does: it fails
where they end in no valid padding, and takes off what it finds (44_pipeline.md R141, 60_exceptions.md R163). -/
theorem decrypt_of_encrypted_blocks {b : Nat → Byte} (hk : s.keyvalid = true) (hr : s.len.toNat ≤ s.buf.cap)
    (h0 : s.len.toNat ≠ 0) (hm : s.len.toNat % 8 = 0)
    (hbytes : ∀ a, a < s.len.toNat → byteAt s a = streamByte .encrypt s.k b a) (h : exec .decrypt s = .next t) :
    (∀ a, byteAt t a = if a < s.len.toNat then b a else byteAt s a) ∧
    (stripPadding b s.len.toNat = none → t.errcode = 2) ∧
    ∀ p, stripPadding b s.len.toNat = some p → t.errcode = 0 ∧ t.len.toNat = s.len.toNat - p := by
  have hplain : ∀ a, a < s.len.toNat → streamByte .decrypt s.k (byteAt s) a = b a :=
    fun a ha => streamByte_inverse_of_eq (d := .encrypt) hm hbytes ha
  obtain ⟨-, -, -, -, hblocks⟩ := decryptChecksDecryptsAndStrips s
  obtain ⟨t', ht', -, -, hbyte, hnone, hsome⟩ := hblocks hk hr h0 hm
  obtain rfl := Host.Outcome.next.inj (h.symm.trans ht')
  rw [stripPadding_congr hplain] at hnone hsome
  refine ⟨fun a => ?_, fun hs => (hnone hs).1, fun p hs => ?_⟩
  · rw [hbyte]
    split
    · next ha => exact hplain a ha
    · rfl
  · obtain ⟨herr, hlen, -⟩ := hsome p hs
    exact ⟨herr, hlen⟩

/-- Whole blocks whose last byte `t` is from 1 to 8 and whose last `t` bytes are alike end in valid padding
(42_padding_codec.md R113). -/
theorem stripPadding_of_uniform_tail {b : Nat → Byte} {len : Nat} (h0 : len ≠ 0) (hm : len % 8 = 0)
    (h1 : 1 ≤ (b (len - 1)).toNat) (h8 : (b (len - 1)).toNat ≤ 8)
    (htail : ∀ i, 1 ≤ i → i ≤ (b (len - 1)).toNat → b (len - i) = b (len - 1)) :
    stripPadding b len = some (b (len - 1)).toNat :=
  stripPadding_eq_some_iff.2 ⟨h0, h1, h8, by omega, fun i hi hit => by rw [htail i hi hit]⟩

/-- Settles O56: ENCRYPT adds no padding, so DECRYPT takes the plaintext's own last bytes for it. -/
theorem paddingBoundaryHazard : Obligations.PaddingBoundaryHazard := by
  intro s t u hcap hk hfull hr hm hst htu
  obtain ⟨hframe, htcap, hbytes⟩ := encrypt_of_whole_blocks hcap hk hfull hr hm hst
  have htk : t.k = s.k := by rw [hframe]
  have htkv : t.keyvalid = true := by rw [hframe, hk]
  have htlen : t.len = s.len := by rw [hframe]
  have htr : t.len.toNat ≤ t.buf.cap := by rwa [htlen, htcap]
  have hnever : u.errcode ≠ 0 ∨ u.len ≠ s.len := htlen ▸ decrypt_shortens htu
  refine ⟨by rw [hframe], htlen, by rw [hframe], ?_⟩
  by_cases h0 : s.len.toNat = 0
  · rw [exec_decrypt_invalidCiphertextSize htkv htr (.inl (by rw [htlen, h0]))] at htu
    obtain rfl := Host.Outcome.next.inj htu
    exact ⟨fun a => by rw [byteAt_setErrcode, hbytes, if_neg (by omega)], fun _ => rfl, fun h => absurd h0 h,
      fun h => absurd h0 h, fun h => absurd h0 h, hnever⟩
  · obtain ⟨hplain, hnone, hsome⟩ := decrypt_of_encrypted_blocks (b := byteAt s) htkv htr (by rwa [htlen])
      (by rwa [htlen]) (fun a ha => by rw [hbytes, if_pos (htlen ▸ ha), htk]) htu
    rw [htlen] at hplain hnone hsome
    have hback : ∀ a, byteAt u a = byteAt s a :=
      fun a => (hplain a).trans (ite_eq_left_iff.2 fun ha => (hbytes a).trans (if_neg ha))
    refine ⟨hback, fun h => absurd h h0, fun _ hlast => ?_, fun _ _ _ hmixed => ?_, fun _ h1 h8 htail => ?_, hnever⟩
    · exact hnone (stripPadding_eq_none_iff.2 (.inr (hlast.imp_right .inl)))
    · exact hnone (stripPadding_eq_none_iff.2 (.inr (.inr (.inr (.inr hmixed)))))
    · exact hsome _ (stripPadding_of_uniform_tail h0 hm h1 h8 htail)

end Sys2Proof.Machine
end
